-- ==== Sys2Proof/Word.lean ====
section
/-! DEFINITION. The word types of HZ-TFU: the byte of `in_data` and `FB` (R4 `BYTE_BITS` = 8, R11, R58) and
the 11-bit port word (R58). Nothing else of this hardware has one machine-wide width: the record registers
have widths of their own (R13), and a frame is a mathematical integer (R5, R31). -/
namespace Sys2Proof

/-- One byte: `in_data`, one location of `FB` (R11, R30, R58). -/
abbrev Byte := BitVec 8

/-- The port word of one step, laid out as rst, in_valid, in_last, in_data from bit 10 down (R58). -/
abbrev PortWord := BitVec 11

end Sys2Proof
end

