-- ==== Sys2Proof/Config.lean ====
section
/-! DEFINITION. The types of the hardware's parameters (R4) and the free values of the power-on state (R20,
R200). The parameters' VALUES (`LAYOUT_V7`, `FLAG_ORDER` and the rest, as one record `params`) stand in
Sys2Proof/Decode.lean beside the encodings they describe. -/
namespace Sys2Proof

/-- The fifteen record registers x[0] to x[14], by name, in index order (R13). -/
inductive Reg where
  | time | temp | pres
  | magX | magY | magZ
  | accX | accY | accZ
  | gyrX | gyrY | gyrZ
  | lat | lon | flags
  deriving DecidableEq, Repr

/-- The eight named conditions of the flags byte, in the order the source lists them (R55). -/
inductive Flag where
  | armed | gpsFix | altitudeHold | batteryLow
  | sensorError | recoveryMode | dataLogging | telemetryActive
  deriving DecidableEq, Repr

/-- One row of a field table: bit offset `o`, width `w`, signedness, the register written, its width `ow`
and the decimal exponent `e` of its scale, none where the field has no scale (R4 `LAYOUT`, R51). -/
structure FieldRow where
  reg      : Reg
  offset   : Nat
  width    : Nat
  signed   : Bool
  regWidth : Nat
  exp10    : Option Int
  deriving DecidableEq, Repr

/-- A field table: the declarative table one generic extraction routine interprets (R51, R61). -/
abbrev Layout := List FieldRow

/-- How the optional binary64 view is formed (R4 `F64_MODE`, R138): one division by 100, 10 or 10^7, or one
multiplication by the rounded reciprocal. -/
inductive F64Mode where
  | division
  | multiplication
  deriving DecidableEq, Repr

/-- The parameters the spec leaves OPEN (92_eei_decisions.md, last paragraph; U5): the field table, the width of
the pressure field, the flag numbering, the mode of the binary64 view. The machine is a function of this record:
"A differently laid-out device is then a different configuration, not a different machine" (R4). -/
structure Configuration where
  layout    : Layout
  presWidth : Nat
  flagOrder : List Flag
  f64Mode   : F64Mode
  deriving DecidableEq, Repr

/-- The parameters of R4, as one configuration record: the open ones, and the constants that are closed decisions.
None is writable at run time. -/
structure Params extends Configuration where
  frameLen          : Nat
  frameBits         : Nat
  byteBits          : Nat
  presDeclaredWidth : Nat
  nReg              : Nat
  regWidths         : List Nat
  cntBits           : Nat
  cntOvf            : Nat
  deriving DecidableEq, Repr

/-! ### Free values of the power-on state

R20 and R200: before the first RST the whole state is unspecified. These constants have no body anyone can
see; nothing can be proved of what they are (notes/assumptions/3.md). -/

/-- `CNT` at power-on: any value of its type (R200). -/
opaque Config.powerOnCnt : Fin 36

/-- `OUT_VALID` at power-on (R200). -/
opaque Config.powerOnOutValid : Bool

/-- `ERR_LEN` at power-on (R200). -/
opaque Config.powerOnErrLen : Bool

/-- The byte at each address of `FB` at power-on (R11, R200). -/
opaque Config.powerOnByte : Nat → Byte

/-- The bit pattern of each record register at power-on (R200); a register takes the low bits it has. -/
opaque Config.powerOnReg : Reg → BitVec 32

end Sys2Proof
end

