-- ==== Sys2Proof/Syntax.lean ====
section
/-! DEFINITION. The operations of spec/opcode_table.json, one constructor per row (R62): four interface
operations of format PORT, fifteen field extractions of format FRAME34, eight flag views of format FLAGBIT.
With them the rows of the PORT format (R58) and the stimulus lines of R59. -/
namespace Sys2Proof

/-- Every row of the opcode table. The host issues RST, IDLE, PUSH and PUSHL, one a step (R70). The fifteen
extractions are micro-operations of an OK completion: every frame undergoes all of them (R50, R75). The
eight flag views are read-only outputs, taken when the host reads them (R94 to R101). -/
inductive Instr where
  -- format PORT (R58)
  | rst
  | idle
  | push (data : Byte)
  | pushl (data : Byte)
  -- format FRAME34, unsigned fields (R92, R93, R102) and signed fields (R111 to R122)
  | xTime
  | xTemp
  | xPres
  | xMagX
  | xMagY
  | xMagZ
  | xAccX
  | xAccY
  | xAccZ
  | xGyrX
  | xGyrY
  | xGyrZ
  | xLat
  | xLon
  | xFlags
  -- format FLAGBIT (R94 to R101)
  | xFlagArmed
  | xFlagGpsFix
  | xFlagAltitudeHold
  | xFlagBatteryLow
  | xFlagSensorError
  | xFlagRecoveryMode
  | xFlagDataLogging
  | xFlagTelemetryActive
  deriving DecidableEq, Repr

/-- The three formats of the opcode table (R62). -/
inductive Format where
  | port | frame34 | flagbit
  deriving DecidableEq, Repr

/-- The format of an operation's row (R62). -/
def Instr.format : Instr → Format
  | .rst | .idle | .push _ | .pushl _ => .port
  | .xTime | .xTemp | .xPres | .xMagX | .xMagY | .xMagZ | .xAccX | .xAccY | .xAccZ
  | .xGyrX | .xGyrY | .xGyrZ | .xLat | .xLon | .xFlags => .frame34
  | .xFlagArmed | .xFlagGpsFix | .xFlagAltitudeHold | .xFlagBatteryLow | .xFlagSensorError
  | .xFlagRecoveryMode | .xFlagDataLogging | .xFlagTelemetryActive => .flagbit

/-- A row of format PORT: a port word `w` selects it when `w &&& mask = value` (R58, R62). -/
structure PortRow where
  name  : String
  value : PortWord
  mask  : PortWord
  deriving DecidableEq, Repr

/-- A port word selects a row when it has the row's value under the row's mask (R58). -/
def PortRow.selects (r : PortRow) (w : PortWord) : Bool := w &&& r.mask == r.value

/-- A line of the stimulus notation of R59, pseudo-operations included; `EXPECT` lines assert and are no step. -/
inductive Line where
  | rst
  | idle (n : Nat)
  | push (data : Byte)
  | pushl (data : Byte)
  | present (bytes : List Byte)
  | frame (bytes : List Byte)
  deriving DecidableEq, Repr

end Sys2Proof
end

