-- ==== Sys2Proof/WellFormed.lean ====
section
/-! DEFINITION. What is well formed: a field table (R61), a stimulus line (R59), the bytes that carry a port
word. `Instr` itself has no ill-formed term: its one operand form is the 8-bit byte of PUSH and PUSHL, which
its type bounds. -/
namespace Sys2Proof

/-- The row-by-row part of R61: `w >= 1`, `o + w <= 272`, `ow >= w`. -/
def FieldRow.wf (r : FieldRow) : Bool :=
  decide (1 ≤ r.width) && decide (r.offset + r.width ≤ 272) && decide (r.width ≤ r.regWidth)

/-- Two rows do not share a frame bit: their ranges `[o, o+w-1]` are disjoint (R61). -/
def FieldRow.disjoint (r q : FieldRow) : Bool :=
  decide (r.offset + r.width ≤ q.offset) || decide (q.offset + q.width ≤ r.offset)

/-- A field table is well formed (R61): every row is, and any two rows write distinct registers and cover
disjoint frame-bit ranges. -/
def Layout.wf : Layout → Bool
  | [] => true
  | r :: rs => r.wf && rs.all (fun q => decide (r.reg ≠ q.reg) && r.disjoint q) && Layout.wf rs

/-- A stimulus line is well formed (R59): PRESENT has at least one byte, FRAME has exactly 34. -/
def Line.wf : Line → Bool
  | .rst | .idle _ | .push _ | .pushl _ => true
  | .present bs => decide (1 ≤ bs.length)
  | .frame bs => decide (bs.length = 34)

/-- Two bytes, low byte first, carry a port word when the five bits above bit 10 are 0: a port word has
eleven bits (R58; notes/assumptions/7.md). -/
def isPortWordBytes (_lo hi : Byte) : Bool := decide (hi.toNat < 8)

end Sys2Proof
end

