-- ==== Sys2Proof/Decode.lean ====
section
/-! DEFINITION. The encodings of HZ-TFU and the decoder and encoder written from them: the field table
`LAYOUT_V7` (R51), the flag numbering (R55), the parameters (R4), the port word (R58), the frame (R50), the
stimulus notation (R59). Decoding is total and refuses by name. -/
namespace Sys2Proof

/-! ### The field table LAYOUT_V7 (R51) -/

def rowTime  : FieldRow := ⟨.time,  0,   24, false, 32, some 0⟩
def rowTemp  : FieldRow := ⟨.temp,  24,  14, true,  16, some (-2)⟩
/-- The pressure row. Its width is decision D9's; the block reads it at `PRES_WIDTH` (`Configuration.rows`, R93). -/
def rowPres  : FieldRow := ⟨.pres,  38,  18, false, 32, some 0⟩
def rowMagX  : FieldRow := ⟨.magX,  56,  16, true,  16, some 0⟩
def rowMagY  : FieldRow := ⟨.magY,  72,  16, true,  16, some 0⟩
def rowMagZ  : FieldRow := ⟨.magZ,  88,  16, true,  16, some 0⟩
def rowAccX  : FieldRow := ⟨.accX,  104, 16, true,  16, some 0⟩
def rowAccY  : FieldRow := ⟨.accY,  120, 16, true,  16, some 0⟩
def rowAccZ  : FieldRow := ⟨.accZ,  136, 16, true,  16, some 0⟩
def rowGyrX  : FieldRow := ⟨.gyrX,  152, 16, true,  16, some (-1)⟩
def rowGyrY  : FieldRow := ⟨.gyrY,  168, 16, true,  16, some (-1)⟩
def rowGyrZ  : FieldRow := ⟨.gyrZ,  184, 16, true,  16, some (-1)⟩
def rowLat   : FieldRow := ⟨.lat,   200, 30, true,  32, some (-7)⟩
def rowLon   : FieldRow := ⟨.lon,   232, 30, true,  32, some (-7)⟩
def rowFlags : FieldRow := ⟨.flags, 264, 8,  false, 8,  none⟩

/-- The field table of R51, in frame order. -/
def layoutV7 : Layout :=
  [rowTime, rowTemp, rowPres, rowMagX, rowMagY, rowMagZ, rowAccX, rowAccY, rowAccZ,
   rowGyrX, rowGyrY, rowGyrZ, rowLat, rowLon, rowFlags]

/-- The row that writes a register (R51: one row per register). -/
def rowOf : Reg → FieldRow
  | .time => rowTime | .temp => rowTemp | .pres => rowPres
  | .magX => rowMagX | .magY => rowMagY | .magZ => rowMagZ
  | .accX => rowAccX | .accY => rowAccY | .accZ => rowAccZ
  | .gyrX => rowGyrX | .gyrY => rowGyrY | .gyrZ => rowGyrZ
  | .lat => rowLat | .lon => rowLon | .flags => rowFlags

/-- The registers in index order, x[0] first (R13). -/
def allRegs : List Reg :=
  [.time, .temp, .pres, .magX, .magY, .magZ, .accX, .accY, .accZ,
   .gyrX, .gyrY, .gyrZ, .lat, .lon, .flags]

/-- The frame bits a row covers, as a 272-bit mask: `frame_mask` of the opcode table (R62). -/
def FieldRow.frameMask (r : FieldRow) : Nat := (2 ^ r.width - 1) * 2 ^ r.offset

/-- The frame bits some row of a table covers (`USED` of R151 for `LAYOUT_V7`). -/
def Layout.usedMask (L : Layout) : Nat := (L.map FieldRow.frameMask).foldr (· ||| ·) 0

/-! ### The flags byte (R55) and the parameters (R4) -/

/-- `FLAG_ORDER`: the conditions from bit 0 up (R4, R55; the numbering is the spec's decision D10). -/
def flagOrder : List Flag :=
  [.armed, .gpsFix, .altitudeHold, .batteryLow, .sensorError, .recoveryMode, .dataLogging, .telemetryActive]

/-- The eight conditions. -/
def allFlags : List Flag :=
  [.armed, .gpsFix, .altitudeHold, .batteryLow, .sensorError, .recoveryMode, .dataLogging, .telemetryActive]

/-- The parameters of R4 with the values this hardware takes. -/
def params : Params where
  layout := layoutV7
  presWidth := 18
  flagOrder := flagOrder
  f64Mode := .division
  frameLen := 34
  frameBits := 272
  byteBits := 8
  presDeclaredWidth := 20
  nReg := 15
  regWidths := [32, 16, 32, 16, 16, 16, 16, 16, 16, 16, 16, 16, 32, 32, 8]
  cntBits := 6
  cntOvf := 35

/-- The configuration of this hardware: `LAYOUT_V7`, `PRES_WIDTH` = 18, `FLAG_ORDER`, `F64_MODE` (R4). -/
abbrev config : Configuration := params.toConfiguration

/-- `FRAME_LEN` (R4). -/
abbrev frameLen : Nat := params.frameLen

/-- `CNT_OVF` (R4): "35 or more bytes were accepted". -/
abbrev cntOvf : Fin 36 := ⟨params.cntOvf, by decide⟩

/-- The width of a record register (R4 output widths, R13). -/
def regWidth (r : Reg) : Nat := params.regWidths.getD (allRegs.idxOf r) 0

/-- The register is signed (R13). -/
def regSigned : Reg → Bool
  | .time | .pres | .flags => false
  | .temp | .magX | .magY | .magZ | .accX | .accY | .accZ | .gyrX | .gyrY | .gyrZ | .lat | .lon => true

/-! ### What a configuration says -/

/-- The least value a field holds (R91 a, R123 a). -/
def FieldRow.minValue (row : FieldRow) : Int := if row.signed then -(2 ^ (row.width - 1) : Int) else 0

/-- The greatest value a field holds (R91 a, R123 a). -/
def FieldRow.maxValue (row : FieldRow) : Int :=
  if row.signed then (2 ^ (row.width - 1) : Int) - 1 else (2 ^ row.width : Int) - 1

/-- The field table with the pressure field at its parameter's width: `PRES_WIDTH` (R4, R93, D9). -/
def Configuration.rows (C : Configuration) : Layout :=
  C.layout.map (fun row => if row.reg = .pres then { row with width := C.presWidth } else row)

/-- The row that writes a register. A table without one, which is no well-formed configuration, is read as an
empty field (notes/assumptions/16.md). -/
def Configuration.row (C : Configuration) (r : Reg) : FieldRow :=
  (C.rows.find? (fun row => row.reg = r)).getD ⟨r, 0, 0, false, 0, none⟩

/-- The bit of the flags byte a condition stands at (R55). -/
def Configuration.flagBit (C : Configuration) (f : Flag) : Nat := C.flagOrder.idxOf f

/-- A configuration is well formed: its table is (R61), has one row for each of the `NREG` registers with the
register's width and signedness (R13), its pressure width lies within the declared one (R4), and every condition
has its own bit of the flags byte (R55). What goes beyond R61 is the model's (notes/assumptions/16.md). -/
def Configuration.wf (C : Configuration) : Bool :=
  C.rows.wf && decide (C.rows.length = params.nReg) && allRegs.all (fun r => C.rows.any (fun row => row.reg = r)) &&
    C.rows.all (fun row => decide (row.regWidth = regWidth row.reg) && decide (row.signed = regSigned row.reg)) &&
    decide (C.presWidth ≤ params.presDeclaredWidth) &&
    decide (C.flagOrder.length = 8) && allFlags.all (fun f => C.flagOrder.contains f)

/-! ### The port word (R58) -/

/-- The four rows of format PORT: match and mask over the eleven bits (R58). -/
def portRows : List PortRow :=
  [⟨"RST", 0x400, 0x400⟩, ⟨"IDLE", 0x000, 0x600⟩, ⟨"PUSH", 0x200, 0x700⟩, ⟨"PUSHL", 0x300, 0x700⟩]

/-- Decoding of a port word: total, each of the 2048 words selects exactly one operation (R58). -/
def decodePort (w : PortWord) : Instr :=
  if w.getLsbD 10 then .rst
  else if w.getLsbD 9 then
    if w.getLsbD 8 then .pushl (w.setWidth 8) else .push (w.setWidth 8)
  else .idle

/-- The port word of an interface operation, ignored bits 0 (R59); the other rows have none. -/
def encodePort : Instr → Option PortWord
  | .rst => some 0x400
  | .idle => some 0x000
  | .push b => some (0b010#3 ++ b)
  | .pushl b => some (0b011#3 ++ b)
  | .xTime | .xTemp | .xPres | .xMagX | .xMagY | .xMagZ | .xAccX | .xAccY | .xAccZ
  | .xGyrX | .xGyrY | .xGyrZ | .xLat | .xLon | .xFlags
  | .xFlagArmed | .xFlagGpsFix | .xFlagAltitudeHold | .xFlagBatteryLow | .xFlagSensorError
  | .xFlagRecoveryMode | .xFlagDataLogging | .xFlagTelemetryActive => none

/-- The name of a PORT row's operation (R58); none for the other formats. -/
def Instr.portName : Instr → Option String
  | .rst => some "RST"
  | .idle => some "IDLE"
  | .push _ => some "PUSH"
  | .pushl _ => some "PUSHL"
  | .xTime | .xTemp | .xPres | .xMagX | .xMagY | .xMagZ | .xAccX | .xAccY | .xAccZ
  | .xGyrX | .xGyrY | .xGyrZ | .xLat | .xLon | .xFlags
  | .xFlagArmed | .xFlagGpsFix | .xFlagAltitudeHold | .xFlagBatteryLow | .xFlagSensorError
  | .xFlagRecoveryMode | .xFlagDataLogging | .xFlagTelemetryActive => none

/-- The operation makes a completion: PUSHL and no other (R74, R79). -/
def Instr.completes : Instr → Bool
  | .pushl _ => true
  | .rst | .idle | .push _
  | .xTime | .xTemp | .xPres | .xMagX | .xMagY | .xMagZ | .xAccX | .xAccY | .xAccZ
  | .xGyrX | .xGyrY | .xGyrZ | .xLat | .xLon | .xFlags
  | .xFlagArmed | .xFlagGpsFix | .xFlagAltitudeHold | .xFlagBatteryLow | .xFlagSensorError
  | .xFlagRecoveryMode | .xFlagDataLogging | .xFlagTelemetryActive => false

/-! ### The frame (R50, R62) -/

/-- The fifteen extractions every frame undergoes, in table order (R50, R51). -/
def extractOps : List Instr :=
  [.xTime, .xTemp, .xPres, .xMagX, .xMagY, .xMagZ, .xAccX, .xAccY, .xAccZ,
   .xGyrX, .xGyrY, .xGyrZ, .xLat, .xLon, .xFlags]

/-- The eight flag views every frame gives, from bit 0 up (R55, R94 to R101). -/
def viewOps : List Instr :=
  [.xFlagArmed, .xFlagGpsFix, .xFlagAltitudeHold, .xFlagBatteryLow,
   .xFlagSensorError, .xFlagRecoveryMode, .xFlagDataLogging, .xFlagTelemetryActive]

/-- The operation that reads a condition's view (R94 to R101). -/
def viewOp : Flag → Instr
  | .armed => .xFlagArmed
  | .gpsFix => .xFlagGpsFix
  | .altitudeHold => .xFlagAltitudeHold
  | .batteryLow => .xFlagBatteryLow
  | .sensorError => .xFlagSensorError
  | .recoveryMode => .xFlagRecoveryMode
  | .dataLogging => .xFlagDataLogging
  | .telemetryActive => .xFlagTelemetryActive

/-- Why bytes are refused by the decoder. -/
inductive DecodeRefusal where
  /-- Two bytes with a bit set above bit 10: no port word (R58). -/
  | bitsAboveThePortWord
  /-- A number of bytes that is neither a port word's two nor a frame's 34 (R50, R58). -/
  | noFormatOfLength (n : Nat)
  deriving DecidableEq, Repr

/-- The operations a sequence of bytes selects. Two bytes, low byte first, are a port word; 34 bytes are a
frame, which selects all fifteen extractions and all eight views whatever its bits are (R50, R57, R62). -/
def decode (bytes : List Byte) : Except DecodeRefusal (List Instr) :=
  match bytes with
  | [lo, hi] =>
    if isPortWordBytes lo hi then .ok [decodePort (hi.setWidth 3 ++ lo)] else .error .bitsAboveThePortWord
  | _ =>
    if bytes.length = frameLen then .ok (extractOps ++ viewOps) else .error (.noFormatOfLength bytes.length)

/-- The bytes of an operation: the port word low byte first, or for a row of format FRAME34 or FLAGBIT its
match word, the frame of zeros (its mask is 0: every frame selects it, R62). -/
def encode (i : Instr) : List Byte :=
  match encodePort i with
  | some w => [w.setWidth 8, (w >>> 8).setWidth 8]
  | none => List.replicate frameLen 0

/-- Byte `j` of a number, counted from the least significant (R31). -/
def byteOf (w j : Nat) : Byte := BitVec.ofNat 8 (w / 2 ^ (8 * j))

/-- The low `n` bytes of a number, least significant first (R31). -/
def bytesOf (n w : Nat) : List Byte := (List.range n).map (byteOf w)

/-- The first operation the decoder reads from the bytes, if it reads one. -/
def decodeFirst (bytes : List Byte) : Option Instr :=
  match decode bytes with
  | .ok (i :: _) => some i
  | .ok [] => none
  | .error _ => none

/-- The operation the decoder reads from a word of the opcode table: up to 16 bits are a port word, more are
a frame. A frame selects all 23 rows of the formats FRAME34 and FLAGBIT at once (R50); the answer is the
first of them, X.TIME (notes/assumptions/8.md). -/
def decodeTableWord (nbits w : Nat) : Option Instr :=
  if nbits ≤ 16 then decodeFirst (bytesOf 2 w)
  else if nbits ≤ params.frameBits then decodeFirst (bytesOf frameLen w)
  else none

/-! ### Stimulus notation (R59) -/

/-- The port words of one presentation: every byte a PUSH but the last, which is a PUSHL (R59 `PRESENT`). -/
def presentWords : List Byte → List PortWord
  | [] => []
  | [b] => [0b011#3 ++ b]
  | b :: c :: bs => (0b010#3 ++ b) :: presentWords (c :: bs)

/-- The port words a stimulus line stands for (R59); none for an ill-formed line. -/
def Line.words (l : Line) : Option (List PortWord) :=
  if l.wf then
    some (match l with
      | .rst => [0x400]
      | .idle n => List.replicate n 0x000
      | .push b => [0b010#3 ++ b]
      | .pushl b => [0b011#3 ++ b]
      | .present bs => presentWords bs
      | .frame bs => presentWords bs)
  else none

end Sys2Proof
end

