-- ==== Sys2Proof/Machine/State.lean ====
section
/-! DEFINITION. The state of HZ-TFU as plain data (R10 to R22), the reasons a step can stop, and the state
after reset (R20). Beside the block's five state items the state holds the two ends of the host's interface:
the actions the host has still to make, the event sequence emitted so far (R79) and what the host has read
(notes/assumptions/1.md). -/
namespace Sys2Proof.Machine

/-- A record: the fifteen register values of one frame, at the register widths of R13. -/
structure Record where
  time  : BitVec 32
  temp  : BitVec 16
  pres  : BitVec 32
  magX  : BitVec 16
  magY  : BitVec 16
  magZ  : BitVec 16
  accX  : BitVec 16
  accY  : BitVec 16
  accZ  : BitVec 16
  gyrX  : BitVec 16
  gyrY  : BitVec 16
  gyrZ  : BitVec 16
  lat   : BitVec 32
  lon   : BitVec 32
  flags : BitVec 8
  deriving DecidableEq, Repr

/-- The record registers x[0] to x[14] (R13). `none` is the spec's own "no value" (R21): a register that no
OK completion has written since the last reset or error completion. -/
structure RegFile where
  time  : Option (BitVec 32)
  temp  : Option (BitVec 16)
  pres  : Option (BitVec 32)
  magX  : Option (BitVec 16)
  magY  : Option (BitVec 16)
  magZ  : Option (BitVec 16)
  accX  : Option (BitVec 16)
  accY  : Option (BitVec 16)
  accZ  : Option (BitVec 16)
  gyrX  : Option (BitVec 16)
  gyrY  : Option (BitVec 16)
  gyrZ  : Option (BitVec 16)
  lat   : Option (BitVec 32)
  lon   : Option (BitVec 32)
  flags : Option (BitVec 8)
  deriving DecidableEq, Repr

/-- `x[0..14] <- no value` (R71, R76). -/
def RegFile.noValue : RegFile :=
  ⟨none, none, none, none, none, none, none, none, none, none, none, none, none, none, none⟩

/-- The one decode failure (R180); a named constructor, never a number (U13). -/
inductive DecodeError where
  | invalidLength
  deriving DecidableEq, Repr

/-- An element of the output event sequence, one per completion (R79). -/
inductive Event where
  | ok (r : Record)
  | err (e : DecodeError)
  deriving DecidableEq, Repr

/-- The output ports that show state (R22); `out_stb` is no state and is `State.outStb`. -/
inductive OutPort where
  | outValid
  | errLen
  | reg (r : Reg)
  | flag (f : Flag)
  deriving DecidableEq, Repr

/-- What the host does: present a port word, which makes a step of the block (R70), or read an output port,
which changes nothing in the block (R22, H6 of R205). -/
inductive HostAction where
  | present (w : PortWord)
  | read (p : OutPort)
  deriving DecidableEq, Repr

/-- One reading the host has taken: the port and the bit pattern it showed, as a number. -/
structure Sample where
  port : OutPort
  bits : Nat
  deriving DecidableEq, Repr

/-- Reasons a step stops with a fault. -/
inductive Fault where
  /-- Raised by a host read of a record port or flag-view port while the record has no value, that is while
  `OUT_VALID` = 0 (R21, R208, U1). Safe: nothing is claimed of the bits such a read would show. -/
  | recordHasNoValue (p : OutPort)
  deriving DecidableEq, Repr

/-- Reasons an operation is refused. -/
inductive Refusal where
  /-- Raised by an arm of exec for an operation that has no meaning yet; no arm does. Safe. -/
  | notModelled (mnemonic : String)
  /-- Raised by `runFromPowerOn` for a run whose first action is not an RST step (R200, R203, U2). Safe:
  nothing is claimed of a run that starts from the unspecified power-on state. -/
  | noResetSincePowerOn
  deriving DecidableEq, Repr

/-- The whole state. -/
structure State where
  /-- `FB`, the frame buffer: addresses 0 to 33 (R11, R30), in the canonical form of `Memory.wf`. -/
  fb       : List Host.Cell
  /-- `CNT`, the saturating byte counter, 0 to 35 (R12). -/
  cnt      : Fin 36
  /-- x[0] to x[14] (R13). -/
  x        : RegFile
  /-- `OUT_VALID` (R15). -/
  outValid : Bool
  /-- `ERR_LEN` (R16). -/
  errLen   : Bool
  /-- The model's own: what the host has still to do, next first (R8, R70). -/
  pending  : List HostAction
  /-- The model's own record of the output event sequence, oldest first (R79). -/
  events   : List Event
  /-- The model's own record of the host's readings, oldest first (R22). -/
  samples  : List Sample
  deriving DecidableEq, Repr

/-- The machine right after reset (R20): `CNT` 0, both flags 0, no record, `FB` with nothing listed, and
nothing presented, emitted or read. -/
def State.reset : State where
  fb := []
  cnt := 0
  x := RegFile.noValue
  outValid := false
  errLen := false
  pending := []
  events := []
  samples := []

end Sys2Proof.Machine
end

