-- ==== Sys2Proof/Machine/Operands.lean ====
section
/-! DEFINITION. Operand assembly and field arithmetic, on mathematical integers (R5): little-endian sums
(R31), EXTRACT (R90), zero and sign extension (R110), the registers' ranges (R13), and UNPACK (R77). -/
namespace Sys2Proof.Machine

/-- `sum over j in 0..n-1 of f j * 2^(8j)`: the little-endian value of n bytes (R7, R31). -/
def leSum (f : Nat → Byte) : Nat → Nat
  | 0 => 0
  | n + 1 => leSum f n + (f n).toNat * 2 ^ (8 * n)

/-- `EXTRACT(o, w)` of a frame integer: frame bits `o+w-1` down to `o` (R90). -/
def extractBits (frame o w : Nat) : Nat := (frame / 2 ^ o) % 2 ^ w

/-- `zext_N(v)`: v itself (R7, R91 b). -/
def zext (v : Nat) : Int := (v : Int)

/-- `sext_N(v)`: "if the top bit of the N-bit field is set, subtract 2^N from the unsigned value" (R110). -/
def sext (n v : Nat) : Int := if v < 2 ^ (n - 1) then (v : Int) else (v : Int) - 2 ^ n

/-- The raw value of a field of a frame: one generic routine over the table's row (R51, R90, R110). -/
def fieldValue (row : FieldRow) (frame : Nat) : Int :=
  let v := extractBits frame row.offset row.width
  if row.signed then sext row.width v else zext v

/-- The least raw value of a register after an OK completion (R13), from its row of the configuration. -/
def rawMin (r : Reg) : Int := (config.row r).minValue

/-- The greatest raw value of a register after an OK completion (R13), from its row of the configuration. -/
def rawMax (r : Reg) : Int := (config.row r).maxValue

/-- A value lies in the raw range of its register (R13). -/
def inRawRange (r : Reg) (v : Int) : Bool := decide (rawMin r ≤ v) && decide (v ≤ rawMax r)

/-- `UNPACK` as a function of the frame integer, with any field table: the fifteen values, each written to a
register of its width as its two's-complement pattern (R5, R51, R123 c). -/
def unpackWith (C : Configuration) (frame : Nat) : Record where
  time  := BitVec.ofInt 32 (fieldValue (C.row .time) frame)
  temp  := BitVec.ofInt 16 (fieldValue (C.row .temp) frame)
  pres  := BitVec.ofInt 32 (fieldValue (C.row .pres) frame)
  magX  := BitVec.ofInt 16 (fieldValue (C.row .magX) frame)
  magY  := BitVec.ofInt 16 (fieldValue (C.row .magY) frame)
  magZ  := BitVec.ofInt 16 (fieldValue (C.row .magZ) frame)
  accX  := BitVec.ofInt 16 (fieldValue (C.row .accX) frame)
  accY  := BitVec.ofInt 16 (fieldValue (C.row .accY) frame)
  accZ  := BitVec.ofInt 16 (fieldValue (C.row .accZ) frame)
  gyrX  := BitVec.ofInt 16 (fieldValue (C.row .gyrX) frame)
  gyrY  := BitVec.ofInt 16 (fieldValue (C.row .gyrY) frame)
  gyrZ  := BitVec.ofInt 16 (fieldValue (C.row .gyrZ) frame)
  lat   := BitVec.ofInt 32 (fieldValue (C.row .lat) frame)
  lon   := BitVec.ofInt 32 (fieldValue (C.row .lon) frame)
  flags := BitVec.ofInt 8 (fieldValue (C.row .flags) frame)

/-- `UNPACK` as a function of the frame integer, with this hardware's table (R75, R77). -/
def unpackFrame (frame : Nat) : Record := unpackWith config frame

/-- The integer a record register holds: signed registers in two's complement (R5, R13). -/
def Record.value (c : Record) : Reg → Int
  | .time => c.time.toNat
  | .temp => c.temp.toInt
  | .pres => c.pres.toNat
  | .magX => c.magX.toInt
  | .magY => c.magY.toInt
  | .magZ => c.magZ.toInt
  | .accX => c.accX.toInt
  | .accY => c.accY.toInt
  | .accZ => c.accZ.toInt
  | .gyrX => c.gyrX.toInt
  | .gyrY => c.gyrY.toInt
  | .gyrZ => c.gyrZ.toInt
  | .lat => c.lat.toInt
  | .lon => c.lon.toInt
  | .flags => c.flags.toNat

/-- The register file that holds a whole record (R75). -/
def RegFile.ofRecord (c : Record) : RegFile where
  time := some c.time
  temp := some c.temp
  pres := some c.pres
  magX := some c.magX
  magY := some c.magY
  magZ := some c.magZ
  accX := some c.accX
  accY := some c.accY
  accZ := some c.accZ
  gyrX := some c.gyrX
  gyrY := some c.gyrY
  gyrZ := some c.gyrZ
  lat := some c.lat
  lon := some c.lon
  flags := some c.flags

/-- `x[i] <- v` (R7): the register takes the two's-complement pattern of v at its width (R5). -/
def RegFile.write (x : RegFile) (r : Reg) (v : Int) : RegFile :=
  match r with
  | .time => { x with time := some (BitVec.ofInt 32 v) }
  | .temp => { x with temp := some (BitVec.ofInt 16 v) }
  | .pres => { x with pres := some (BitVec.ofInt 32 v) }
  | .magX => { x with magX := some (BitVec.ofInt 16 v) }
  | .magY => { x with magY := some (BitVec.ofInt 16 v) }
  | .magZ => { x with magZ := some (BitVec.ofInt 16 v) }
  | .accX => { x with accX := some (BitVec.ofInt 16 v) }
  | .accY => { x with accY := some (BitVec.ofInt 16 v) }
  | .accZ => { x with accZ := some (BitVec.ofInt 16 v) }
  | .gyrX => { x with gyrX := some (BitVec.ofInt 16 v) }
  | .gyrY => { x with gyrY := some (BitVec.ofInt 16 v) }
  | .gyrZ => { x with gyrZ := some (BitVec.ofInt 16 v) }
  | .lat => { x with lat := some (BitVec.ofInt 32 v) }
  | .lon => { x with lon := some (BitVec.ofInt 32 v) }
  | .flags => { x with flags := some (BitVec.ofInt 8 v) }

/-- The bit pattern a register holds, as a number; none while it has no value (R21, R22). -/
def RegFile.bits (x : RegFile) : Reg → Option Nat
  | .time => x.time.map BitVec.toNat
  | .temp => x.temp.map BitVec.toNat
  | .pres => x.pres.map BitVec.toNat
  | .magX => x.magX.map BitVec.toNat
  | .magY => x.magY.map BitVec.toNat
  | .magZ => x.magZ.map BitVec.toNat
  | .accX => x.accX.map BitVec.toNat
  | .accY => x.accY.map BitVec.toNat
  | .accZ => x.accZ.map BitVec.toNat
  | .gyrX => x.gyrX.map BitVec.toNat
  | .gyrY => x.gyrY.map BitVec.toNat
  | .gyrZ => x.gyrZ.map BitVec.toNat
  | .lat => x.lat.map BitVec.toNat
  | .lon => x.lon.map BitVec.toNat
  | .flags => x.flags.map BitVec.toNat

/-- The integer a register holds, signed where the register is (R5, R13); none while it has no value. -/
def RegFile.value (x : RegFile) (r : Reg) : Option Int :=
  (x.bits r).map (fun n => if regSigned r then (BitVec.ofNat (regWidth r) n).toInt else (n : Int))

end Sys2Proof.Machine
end

