-- ==== Sys2Proof/Machine/Flags.lean ====
section
/-! DEFINITION. The two status flags and who writes them (R15, R16, R17), and the eight named views of the
flags byte (R94 to R101). The block has no arithmetic condition codes (R17). -/
namespace Sys2Proof.Machine

/-- Writes `OUT_VALID` and `ERR_LEN`: the only flag update there is (R17). -/
def State.withFlags (s : State) (outValid errLen : Bool) : State :=
  { s with outValid := outValid, errLen := errLen }

/-- RST clears both flags (R71). -/
def State.flagsCleared (s : State) : State := s.withFlags false false

/-- An OK completion: `OUT_VALID <- 1`, `ERR_LEN <- 0` (R75). -/
def State.flagsOk (s : State) : State := s.withFlags true false

/-- An error completion: `OUT_VALID <- 0`, `ERR_LEN <- 1` (R76). -/
def State.flagsErr (s : State) : State := s.withFlags false true

/-- A named view of a flags byte: `x[14][k]` with k the condition's bit in the configuration (R55). -/
def flagViewWith (C : Configuration) (f : Flag) (flags : BitVec 8) : Bool := flags.getLsbD (C.flagBit f)

/-- A named view of a flags byte with this hardware's `FLAG_ORDER` (R94 to R101). -/
def flagView (f : Flag) (flags : BitVec 8) : Bool := flagViewWith config f flags

end Sys2Proof.Machine
end

