-- ==== Sys2Proof/Machine/Ops.lean ====
section
/-! DEFINITION. The named operations over the frame buffer, the counter, the registers and the host's side of
the interface; the two completions, of which the error completion is the block's one exception (R182). Every
meaning is written over these. -/
namespace Sys2Proof.Machine

/-! ### The frame buffer (R11, R30, R31, R34) -/

/-- `FB` as data: (address, byte) pairs. -/
abbrev Memory := List Host.Cell

/-- What an address that is not listed reads as: 0 (notes/assumptions/2.md). -/
abbrev unlistedByte : Byte := 0

/-- `FB[a]` (R7). -/
def Memory.read (m : Memory) (a : Nat) : Byte :=
  match m with
  | [] => unlistedByte
  | (k, b) :: m => if a = k then b else Memory.read m a

/-- `FB[a] <- b`, keeping the canonical form: a byte equal to what an unlisted address reads as is not listed. -/
def Memory.write (m : Memory) (a : Nat) (b : Byte) : Memory :=
  match m with
  | [] => if b = unlistedByte then [] else [(a, b)]
  | (k, c) :: m =>
    if a < k then if b = unlistedByte then (k, c) :: m else (a, b) :: (k, c) :: m
    else if a = k then if b = unlistedByte then m else (a, b) :: m
    else (k, c) :: Memory.write m a b

/-- The canonical form: addresses strictly rising, none above 33 (R30), no entry equal to what an unlisted
address reads as. -/
abbrev Memory.wf (m : Memory) : Prop :=
  m.Pairwise (fun p q => p.1 < q.1) ∧ ∀ p ∈ m, p.1 < frameLen ∧ p.2 ≠ unlistedByte

/-- `MemRead(addr, n)` (R7): defined when `addr + n <= 34`. -/
def memRead (m : Memory) (addr n : Nat) : Option Nat :=
  if addr + n ≤ frameLen then some (leSum (fun j => m.read (addr + j)) n) else none

/-- `MemWrite(addr, n, v)` (R7), for `addr + n <= 34`; the block only ever uses n = 1 (R34). -/
def memWrite (m : Memory) (addr n v : Nat) : Memory :=
  match n with
  | 0 => m
  | n + 1 => (memWrite m addr n v).write (addr + n) (byteOf v n)

/-- `FRAME`: the whole buffer as one 272-bit unsigned value (R7, R31). -/
def frameOf (m : Memory) : Nat := leSum m.read frameLen

/-- The buffer that holds the given bytes from address 0 upward and nothing above. -/
def Memory.ofBytes (bs : List Byte) : Memory :=
  (List.range bs.length).foldl (fun m a => m.write a (bs.getD a 0)) []

/-! ### State updates, one per piece of state -/

def State.withFb (s : State) (m : Memory) : State := { s with fb := m }
def State.withCnt (s : State) (c : Fin 36) : State := { s with cnt := c }
def State.withRegs (s : State) (x : RegFile) : State := { s with x := x }
def State.withPending (s : State) (p : List HostAction) : State := { s with pending := p }

/-- `emit e` (R7, R79). -/
def State.emit (s : State) (e : Event) : State := { s with events := s.events ++ [e] }

/-- The host takes a reading (R22). -/
def State.noteSample (s : State) (r : Sample) : State := { s with samples := s.samples ++ [r] }

/-! ### Accepting a byte (R34, R73, R74) -/

/-- `MemWrite(addr, 1, in_data)`: the only store of the block (R34). -/
def State.storeByte (s : State) (addr : Nat) (b : Byte) : State :=
  s.withFb (memWrite s.fb addr 1 b.toNat)

/-- `cnt <- cnt + 1` where the counter is below its saturating value, which it never leaves by counting (R12). -/
def cntSucc (c : Fin 36) : Fin 36 :=
  if h : c.val < cntOvf.val then ⟨c.val + 1, Nat.lt_of_le_of_lt h cntOvf.isLt⟩ else cntOvf

/-- The body of PUSH (R73): store and count while fewer than `FRAME_LEN` bytes are there (`cnt <= 33`), else
saturate and discard. -/
def State.acceptByte (s : State) (b : Byte) : State :=
  if s.cnt.val < frameLen then (s.storeByte s.cnt.val b).withCnt (cntSucc s.cnt) else s.withCnt cntOvf

/-! ### The fields (R75, R90, R110) -/

/-- `x[reg] <- ext(EXTRACT(o, w))` for one row of the field table: the generic extraction of R51. -/
def State.extractField (s : State) (row : FieldRow) : State :=
  s.withRegs (s.x.write row.reg (fieldValue row (frameOf s.fb)))

/-! ### The two completions -/

/-- COMMIT_OK (R75) with any field table: all fifteen registers in one step, all from the same `FB`. -/
def State.commitOkWith (C : Configuration) (s : State) : State :=
  ((s.withRegs (RegFile.ofRecord (unpackWith C (frameOf s.fb)))).flagsOk).emit
    (.ok (unpackWith C (frameOf s.fb)))

/-- COMMIT_OK (R75) of this hardware: the record is `UNPACK(FB[0..33])`. -/
def State.commitOk (s : State) : State := s.commitOkWith config

/-- Taking the block's one exception, `raise InvalidLength()` = COMMIT_ERR (R76, R180, R182). Nothing is
saved, there is no vector and no mode, and there is no return from it (R183): the next completion or RST
leaves the error state. -/
def State.raiseInvalidLength (s : State) : State :=
  ((s.withRegs RegFile.noValue).flagsErr).emit (.err .invalidLength)

/-- The numeric code of the exception (R180); nothing compares against it (U13). -/
def DecodeError.code : DecodeError → Nat
  | .invalidLength => 1

/-! ### The host's side: output ports and readings (R22) -/

/-- The width of an output port (R22). -/
def OutPort.width : OutPort → Nat
  | .outValid | .errLen | .flag _ => 1
  | .reg r => regWidth r

/-- What an output port shows, as a number. A record port or flag view shows no value the spec gives while
`OUT_VALID` = 0: such a read is the host's fault (R21, R208, U1). -/
def State.readPortWith (C : Configuration) (s : State) (p : OutPort) : Except Fault Nat :=
  match p with
  | .outValid => .ok s.outValid.toNat
  | .errLen => .ok s.errLen.toNat
  | .reg r =>
    if s.outValid then
      match s.x.bits r with
      | some n => .ok n
      | none => .error (.recordHasNoValue p)
    else .error (.recordHasNoValue p)
  | .flag f =>
    if s.outValid then
      match s.x.flags with
      | some b => .ok (flagViewWith C f b).toNat
      | none => .error (.recordHasNoValue p)
    else .error (.recordHasNoValue p)

/-- The host reads an output port: the block's state is unchanged, the reading is noted (R22, R94). -/
def State.samplePortWith (C : Configuration) (s : State) (p : OutPort) : Host.Outcome State Fault Refusal :=
  match s.readPortWith C p with
  | .ok n => .next (s.noteSample ⟨p, n⟩)
  | .error e => .fault e

/-- What an output port of this hardware shows (R22). -/
def State.readPort (s : State) (p : OutPort) : Except Fault Nat := s.readPortWith config p

/-- The host reads an output port of this hardware (R22, R94). -/
def State.samplePort (s : State) (p : OutPort) : Host.Outcome State Fault Refusal := s.samplePortWith config p

/-- `out_stb` (R22, R79): 1 during a step that makes a completion, that is while the port word being presented
is a PUSHL. It is no state. -/
def State.outStb (s : State) : Bool :=
  match s.pending with
  | .present w :: _ => (decodePort w).completes
  | .read _ :: _ => false
  | [] => false

/-- The host's next action, and the state in which it is made: the action taken off the pending list (R70). -/
def State.nextAction (s : State) : Option (HostAction × State) :=
  match s.pending with
  | [] => none
  | a :: rest => some (a, s.withPending rest)

/-- The pending actions with one put in front: what `State.nextAction` takes next. -/
def State.presentNext (s : State) (a : HostAction) : State := s.withPending (a :: s.pending)

end Sys2Proof.Machine
end

