-- ==== Sys2Proof/Machine/ExtractSigned.lean ====
section
/-! DEFINITION. The twelve signed field operations (R111 to R122): micro-operations of an OK completion, each
the generic extraction of its row of the configuration's field table (`LAYOUT_V7`) with the generic sign extension
of R110. -/
namespace Sys2Proof.Machine

/-- X.TEMP (R111) by the table of a configuration. -/
def execXTempWith (C : Configuration) (s : State) : Host.Outcome State Fault Refusal :=
  .next (s.extractField (C.row .temp))

/-- X.TEMP (R111): `x[1] <- sext_14(EXTRACT(24, 14))`. -/
def execXTemp (s : State) : Host.Outcome State Fault Refusal := execXTempWith config s

/-- X.MAGX (R112) by the table of a configuration. -/
def execXMagXWith (C : Configuration) (s : State) : Host.Outcome State Fault Refusal :=
  .next (s.extractField (C.row .magX))

/-- X.MAGX (R112): `x[3] <- sext_16(EXTRACT(56, 16))`. -/
def execXMagX (s : State) : Host.Outcome State Fault Refusal := execXMagXWith config s

/-- X.MAGY (R113) by the table of a configuration. -/
def execXMagYWith (C : Configuration) (s : State) : Host.Outcome State Fault Refusal :=
  .next (s.extractField (C.row .magY))

/-- X.MAGY (R113): `x[4] <- sext_16(EXTRACT(72, 16))`. -/
def execXMagY (s : State) : Host.Outcome State Fault Refusal := execXMagYWith config s

/-- X.MAGZ (R114) by the table of a configuration. -/
def execXMagZWith (C : Configuration) (s : State) : Host.Outcome State Fault Refusal :=
  .next (s.extractField (C.row .magZ))

/-- X.MAGZ (R114): `x[5] <- sext_16(EXTRACT(88, 16))`. -/
def execXMagZ (s : State) : Host.Outcome State Fault Refusal := execXMagZWith config s

/-- X.ACCX (R115) by the table of a configuration. -/
def execXAccXWith (C : Configuration) (s : State) : Host.Outcome State Fault Refusal :=
  .next (s.extractField (C.row .accX))

/-- X.ACCX (R115): `x[6] <- sext_16(EXTRACT(104, 16))`. -/
def execXAccX (s : State) : Host.Outcome State Fault Refusal := execXAccXWith config s

/-- X.ACCY (R116) by the table of a configuration. -/
def execXAccYWith (C : Configuration) (s : State) : Host.Outcome State Fault Refusal :=
  .next (s.extractField (C.row .accY))

/-- X.ACCY (R116): `x[7] <- sext_16(EXTRACT(120, 16))`. -/
def execXAccY (s : State) : Host.Outcome State Fault Refusal := execXAccYWith config s

/-- X.ACCZ (R117) by the table of a configuration. -/
def execXAccZWith (C : Configuration) (s : State) : Host.Outcome State Fault Refusal :=
  .next (s.extractField (C.row .accZ))

/-- X.ACCZ (R117): `x[8] <- sext_16(EXTRACT(136, 16))`. -/
def execXAccZ (s : State) : Host.Outcome State Fault Refusal := execXAccZWith config s

/-- X.GYRX (R118) by the table of a configuration. -/
def execXGyrXWith (C : Configuration) (s : State) : Host.Outcome State Fault Refusal :=
  .next (s.extractField (C.row .gyrX))

/-- X.GYRX (R118): `x[9] <- sext_16(EXTRACT(152, 16))`. -/
def execXGyrX (s : State) : Host.Outcome State Fault Refusal := execXGyrXWith config s

/-- X.GYRY (R119) by the table of a configuration. -/
def execXGyrYWith (C : Configuration) (s : State) : Host.Outcome State Fault Refusal :=
  .next (s.extractField (C.row .gyrY))

/-- X.GYRY (R119): `x[10] <- sext_16(EXTRACT(168, 16))`. -/
def execXGyrY (s : State) : Host.Outcome State Fault Refusal := execXGyrYWith config s

/-- X.GYRZ (R120) by the table of a configuration. -/
def execXGyrZWith (C : Configuration) (s : State) : Host.Outcome State Fault Refusal :=
  .next (s.extractField (C.row .gyrZ))

/-- X.GYRZ (R120): `x[11] <- sext_16(EXTRACT(184, 16))`. -/
def execXGyrZ (s : State) : Host.Outcome State Fault Refusal := execXGyrZWith config s

/-- X.LAT (R121) by the table of a configuration. -/
def execXLatWith (C : Configuration) (s : State) : Host.Outcome State Fault Refusal :=
  .next (s.extractField (C.row .lat))

/-- X.LAT (R121): `x[12] <- sext_30(EXTRACT(200, 30))`. -/
def execXLat (s : State) : Host.Outcome State Fault Refusal := execXLatWith config s

/-- X.LON (R122) by the table of a configuration. -/
def execXLonWith (C : Configuration) (s : State) : Host.Outcome State Fault Refusal :=
  .next (s.extractField (C.row .lon))

/-- X.LON (R122): `x[13] <- sext_30(EXTRACT(232, 30))`. -/
def execXLon (s : State) : Host.Outcome State Fault Refusal := execXLonWith config s

end Sys2Proof.Machine
end

