-- ==== Sys2Proof/Machine/ExtractUnsigned.lean ====
section
/-! DEFINITION. The three unsigned field operations (R92, R93, R102): micro-operations of an OK completion,
each the generic extraction of its row of the configuration's field table (`LAYOUT_V7`). -/
namespace Sys2Proof.Machine

/-- X.TIME (R92) by the table of a configuration. -/
def execXTimeWith (C : Configuration) (s : State) : Host.Outcome State Fault Refusal :=
  .next (s.extractField (C.row .time))

/-- X.TIME (R92): `x[0] <- zext_32(EXTRACT(0, 24))`. -/
def execXTime (s : State) : Host.Outcome State Fault Refusal := execXTimeWith config s

/-- X.PRES (R93) by the table of a configuration. -/
def execXPresWith (C : Configuration) (s : State) : Host.Outcome State Fault Refusal :=
  .next (s.extractField (C.row .pres))

/-- X.PRES (R93): `x[2] <- zext_32(EXTRACT(38, 18))`. -/
def execXPres (s : State) : Host.Outcome State Fault Refusal := execXPresWith config s

/-- X.FLAGS (R102) by the table of a configuration. -/
def execXFlagsWith (C : Configuration) (s : State) : Host.Outcome State Fault Refusal :=
  .next (s.extractField (C.row .flags))

/-- X.FLAGS (R102): `x[14] <- zext_8(EXTRACT(264, 8))`. -/
def execXFlags (s : State) : Host.Outcome State Fault Refusal := execXFlagsWith config s

end Sys2Proof.Machine
end

