-- ==== Sys2Proof/Machine/FlagViews.lean ====
section
/-! DEFINITION. The eight named views of the flags byte (R94 to R101): read-only one-bit outputs. A view writes
no state of the block; its meaning is the host's reading of the port, valid only while `OUT_VALID` = 1 (R208),
with the condition's bit number from `FLAG_ORDER` (R55). -/
namespace Sys2Proof.Machine

/-- X.FLAG.ARMED (R94) by the flag numbering of a configuration. -/
def execXFlagArmedWith (C : Configuration) (s : State) : Host.Outcome State Fault Refusal :=
  s.samplePortWith C (.flag .armed)

/-- X.FLAG.ARMED (R94): `f_armed = x[14][0]`. -/
def execXFlagArmed (s : State) : Host.Outcome State Fault Refusal := execXFlagArmedWith config s

/-- X.FLAG.GPS_FIX (R95) by the flag numbering of a configuration. -/
def execXFlagGpsFixWith (C : Configuration) (s : State) : Host.Outcome State Fault Refusal :=
  s.samplePortWith C (.flag .gpsFix)

/-- X.FLAG.GPS_FIX (R95): `f_gps_fix = x[14][1]`. -/
def execXFlagGpsFix (s : State) : Host.Outcome State Fault Refusal := execXFlagGpsFixWith config s

/-- X.FLAG.ALTITUDE_HOLD (R96) by the flag numbering of a configuration. -/
def execXFlagAltitudeHoldWith (C : Configuration) (s : State) : Host.Outcome State Fault Refusal :=
  s.samplePortWith C (.flag .altitudeHold)

/-- X.FLAG.ALTITUDE_HOLD (R96): `f_altitude_hold = x[14][2]`. -/
def execXFlagAltitudeHold (s : State) : Host.Outcome State Fault Refusal := execXFlagAltitudeHoldWith config s

/-- X.FLAG.BATTERY_LOW (R97) by the flag numbering of a configuration. -/
def execXFlagBatteryLowWith (C : Configuration) (s : State) : Host.Outcome State Fault Refusal :=
  s.samplePortWith C (.flag .batteryLow)

/-- X.FLAG.BATTERY_LOW (R97): `f_battery_low = x[14][3]`. -/
def execXFlagBatteryLow (s : State) : Host.Outcome State Fault Refusal := execXFlagBatteryLowWith config s

/-- X.FLAG.SENSOR_ERROR (R98) by the flag numbering of a configuration. -/
def execXFlagSensorErrorWith (C : Configuration) (s : State) : Host.Outcome State Fault Refusal :=
  s.samplePortWith C (.flag .sensorError)

/-- X.FLAG.SENSOR_ERROR (R98): `f_sensor_error = x[14][4]`. -/
def execXFlagSensorError (s : State) : Host.Outcome State Fault Refusal := execXFlagSensorErrorWith config s

/-- X.FLAG.RECOVERY_MODE (R99) by the flag numbering of a configuration. -/
def execXFlagRecoveryModeWith (C : Configuration) (s : State) : Host.Outcome State Fault Refusal :=
  s.samplePortWith C (.flag .recoveryMode)

/-- X.FLAG.RECOVERY_MODE (R99): `f_recovery_mode = x[14][5]`. -/
def execXFlagRecoveryMode (s : State) : Host.Outcome State Fault Refusal := execXFlagRecoveryModeWith config s

/-- X.FLAG.DATA_LOGGING (R100) by the flag numbering of a configuration. -/
def execXFlagDataLoggingWith (C : Configuration) (s : State) : Host.Outcome State Fault Refusal :=
  s.samplePortWith C (.flag .dataLogging)

/-- X.FLAG.DATA_LOGGING (R100): `f_data_logging = x[14][6]`. -/
def execXFlagDataLogging (s : State) : Host.Outcome State Fault Refusal := execXFlagDataLoggingWith config s

/-- X.FLAG.TELEMETRY_ACTIVE (R101) by the flag numbering of a configuration. -/
def execXFlagTelemetryActiveWith (C : Configuration) (s : State) : Host.Outcome State Fault Refusal :=
  s.samplePortWith C (.flag .telemetryActive)

/-- X.FLAG.TELEMETRY_ACTIVE (R101): `f_telemetry_active = x[14][7]`. -/
def execXFlagTelemetryActive (s : State) : Host.Outcome State Fault Refusal := execXFlagTelemetryActiveWith config s

end Sys2Proof.Machine
end

