-- ==== Sys2Proof/Machine/Interface.lean ====
section
/-! DEFINITION. The meanings of the four interface operations (R71 to R74). Each is enabled in every state and
answers a next state (R70). -/
namespace Sys2Proof.Machine

/-- RST (R71): counter, flags and record cleared; `FB` unchanged. -/
def execRst (s : State) : Host.Outcome State Fault Refusal :=
  .next ((s.withCnt 0).flagsCleared.withRegs RegFile.noValue)

/-- IDLE (R72): no state changes. -/
def execIdle (s : State) : Host.Outcome State Fault Refusal :=
  .next s

/-- PUSH (R73): one byte that is not the last of its presentation. -/
def execPush (b : Byte) (s : State) : Host.Outcome State Fault Refusal :=
  .next (s.acceptByte b)

/-- PUSHL (R74) with any field table: the last byte of a presentation. With `FRAME_LEN` - 1 = 33 bytes before it
the length is 34 and the completion is OK; otherwise the byte is stored where PUSH would store it (`cnt <= 32`) and
InvalidLength is raised. -/
def execPushlWith (C : Configuration) (b : Byte) (s : State) : Host.Outcome State Fault Refusal :=
  .next
    (if s.cnt.val + 1 = frameLen then ((s.storeByte s.cnt.val b).commitOkWith C).withCnt 0
     else ((if s.cnt.val + 1 < frameLen then s.storeByte s.cnt.val b else s).raiseInvalidLength).withCnt 0)

/-- PUSHL (R74) of this hardware. -/
def execPushl (b : Byte) (s : State) : Host.Outcome State Fault Refusal := execPushlWith config b s

end Sys2Proof.Machine
end

