-- ==== Sys2Proof/Machine/Dispatch.lean ====
section
/-! DEFINITION. The one dispatch from an operation to its meaning: one arm per row of the opcode table. -/
namespace Sys2Proof.Machine

def exec (i : Instr) (s : State) : Host.Outcome State Fault Refusal :=
  match i with
  -- format PORT
  | .rst => Sys2Proof.Machine.execRst s
  | .idle => Sys2Proof.Machine.execIdle s
  | .push data => Sys2Proof.Machine.execPush data s
  | .pushl data => Sys2Proof.Machine.execPushl data s
  -- format FRAME34
  | .xTime => Sys2Proof.Machine.execXTime s
  | .xTemp => Sys2Proof.Machine.execXTemp s
  | .xPres => Sys2Proof.Machine.execXPres s
  | .xMagX => Sys2Proof.Machine.execXMagX s
  | .xMagY => Sys2Proof.Machine.execXMagY s
  | .xMagZ => Sys2Proof.Machine.execXMagZ s
  | .xAccX => Sys2Proof.Machine.execXAccX s
  | .xAccY => Sys2Proof.Machine.execXAccY s
  | .xAccZ => Sys2Proof.Machine.execXAccZ s
  | .xGyrX => Sys2Proof.Machine.execXGyrX s
  | .xGyrY => Sys2Proof.Machine.execXGyrY s
  | .xGyrZ => Sys2Proof.Machine.execXGyrZ s
  | .xLat => Sys2Proof.Machine.execXLat s
  | .xLon => Sys2Proof.Machine.execXLon s
  | .xFlags => Sys2Proof.Machine.execXFlags s
  -- format FLAGBIT
  | .xFlagArmed => Sys2Proof.Machine.execXFlagArmed s
  | .xFlagGpsFix => Sys2Proof.Machine.execXFlagGpsFix s
  | .xFlagAltitudeHold => Sys2Proof.Machine.execXFlagAltitudeHold s
  | .xFlagBatteryLow => Sys2Proof.Machine.execXFlagBatteryLow s
  | .xFlagSensorError => Sys2Proof.Machine.execXFlagSensorError s
  | .xFlagRecoveryMode => Sys2Proof.Machine.execXFlagRecoveryMode s
  | .xFlagDataLogging => Sys2Proof.Machine.execXFlagDataLogging s
  | .xFlagTelemetryActive => Sys2Proof.Machine.execXFlagTelemetryActive s

end Sys2Proof.Machine
end

