-- ==== Sys2Proof/Machine/Step.lean ====
section
/-! DEFINITION. One step (R8, R70): the host's next action is taken off the pending list and made. A port word
is decoded to exactly one operation and executed; a read takes a sample of a port. With nothing pending,
nothing happens (R70): "The block makes no step of its own". -/
namespace Sys2Proof.Machine

/-- One action of the host, made in a state: a port word runs the operation it selects, a read of a flag view
runs the view's operation, a read of another port takes the sample. -/
def perform (a : HostAction) (s : State) : Host.Outcome State Fault Refusal :=
  match a with
  | .present w => exec (decodePort w) s
  | .read (.flag f) => exec (viewOp f) s
  | .read (.reg r) => s.samplePort (.reg r)
  | .read .outValid => s.samplePort .outValid
  | .read .errLen => s.samplePort .errLen

/-- One step of the machine. -/
def step (s : State) : Host.Outcome State Fault Refusal :=
  match s.nextAction with
  | none => .next s
  | some (a, t) => perform a t

/-- The state whose next step runs the given word of the opcode table. A word of up to 16 bits is presented as
a port word. A longer word is a frame: its first 33 bytes stand in `FB` with `CNT` = 33 and its last byte is
presented by a PUSHL, so that the very next step is the OK completion that runs all fifteen extractions on
that frame (R75; notes/assumptions/8.md). -/
def State.withFetchWord (s : State) (nbits w : Nat) : State :=
  if nbits ≤ 16 then s.presentNext (.present (BitVec.ofNat 11 w))
  else
    ((s.withFb (Memory.ofBytes (bytesOf 33 w))).withCnt 33).presentNext
      (.present (0b011#3 ++ byteOf w 33))

end Sys2Proof.Machine
end

