-- ==== Sys2Proof/Machine/Configured.lean ====
section
/-! DEFINITION. The block as a function of its configuration (R4, R213, U5): the same operations over another field
table, pressure width and flag numbering. This hardware is the block at `config`; `exec` and `step` are that one. -/
namespace Sys2Proof.Machine

/-- The operations in a configuration. RST, IDLE and PUSH read none of it. -/
def execWith (C : Configuration) (i : Instr) (s : State) : Host.Outcome State Fault Refusal :=
  match i with
  | .rst => execRst s
  | .idle => execIdle s
  | .push data => execPush data s
  | .pushl data => execPushlWith C data s
  | .xTime => execXTimeWith C s
  | .xTemp => execXTempWith C s
  | .xPres => execXPresWith C s
  | .xMagX => execXMagXWith C s
  | .xMagY => execXMagYWith C s
  | .xMagZ => execXMagZWith C s
  | .xAccX => execXAccXWith C s
  | .xAccY => execXAccYWith C s
  | .xAccZ => execXAccZWith C s
  | .xGyrX => execXGyrXWith C s
  | .xGyrY => execXGyrYWith C s
  | .xGyrZ => execXGyrZWith C s
  | .xLat => execXLatWith C s
  | .xLon => execXLonWith C s
  | .xFlags => execXFlagsWith C s
  | .xFlagArmed => execXFlagArmedWith C s
  | .xFlagGpsFix => execXFlagGpsFixWith C s
  | .xFlagAltitudeHold => execXFlagAltitudeHoldWith C s
  | .xFlagBatteryLow => execXFlagBatteryLowWith C s
  | .xFlagSensorError => execXFlagSensorErrorWith C s
  | .xFlagRecoveryMode => execXFlagRecoveryModeWith C s
  | .xFlagDataLogging => execXFlagDataLoggingWith C s
  | .xFlagTelemetryActive => execXFlagTelemetryActiveWith C s

/-- One action of the host in a configuration. -/
def performWith (C : Configuration) (a : HostAction) (s : State) : Host.Outcome State Fault Refusal :=
  match a with
  | .present w => execWith C (decodePort w) s
  | .read (.flag f) => execWith C (viewOp f) s
  | .read (.reg r) => s.samplePortWith C (.reg r)
  | .read .outValid => s.samplePortWith C .outValid
  | .read .errLen => s.samplePortWith C .errLen

/-- One step in a configuration. -/
def stepWith (C : Configuration) (s : State) : Host.Outcome State Fault Refusal :=
  match s.nextAction with
  | none => .next s
  | some (a, t) => performWith C a t

end Sys2Proof.Machine
end

