-- ==== Sys2Proof/Machine/Reference.lean ====
section
/-! DEFINITION. The pure functions of the spec over byte lists and field tables: `UNPACK` and `DECODE` (R77),
which the step relation implements (R78), the reference packer `PACK` (R150), and both for any field table
(R61, R91, R152, R153). None of them is an operation of the block. -/
namespace Sys2Proof.Machine

/-- The frame integer of a list of 34 bytes: `sum b[a] * 2^(8a)` (R31, R77). -/
def frameOfBytes (bs : List Byte) : Nat := leSum (fun a => bs.getD a 0) frameLen

/-- `UNPACK(b[0..33])` (R77); b has exactly 34 bytes. -/
def unpack (bs : List Byte) : Record := unpackFrame (frameOfBytes bs)

/-- `DECODE(bs)` (R77): total on byte lists of every length, 0 included; its one failure is the length. -/
def decodeBytes (bs : List Byte) : Event :=
  if bs.length = frameLen then .ok (unpack bs) else .err .invalidLength

/-- `pat(v, w) = v mod 2^w`, the w-bit two's-complement pattern of v (R5, R150). -/
def pattern (v : Int) (w : Nat) : Nat := (v % 2 ^ w).toNat

/-- The frame integer that holds the given values at the rows of a table, unused bits 0 (R150). -/
def packWith (L : Layout) (v : Reg → Int) : Nat :=
  (L.map (fun row => pattern (v row.reg) row.width * 2 ^ row.offset)).sum

/-- `PACK(r)` (R150, D25): the 34 bytes of an in-range record; refused (none) outside the raw ranges. -/
def pack (v : Reg → Int) : Option (List Byte) :=
  if allRegs.all (fun r => inRawRange r (v r)) then some (bytesOf frameLen (packWith config.rows v)) else none

/-- The value a table gives a register, where the table has a row for it. -/
def valueWith (L : Layout) (frame : Nat) (r : Reg) : Option Int :=
  (L.find? (fun row => row.reg = r)).map (fun row => fieldValue row frame)

/-- `USED` (R151): all frame bits but 230, 231, 262, 263. -/
def usedMask : Nat := 2 ^ 272 - 1 - 2 ^ 230 - 2 ^ 231 - 2 ^ 262 - 2 ^ 263

end Sys2Proof.Machine
end

