-- ==== Sys2Proof/Machine/Scaling.lean ====
section
/-! DEFINITION. What number each record register denotes (R130 to R137), exact over the rationals, and the
optional binary64 view of a consumer outside the block (R138). The block does no arithmetic for either. -/
namespace Sys2Proof.Machine

/-- `VAL(i) = x[i] * 10^e(i)` (R130); none for the flags byte, which has no scale. -/
def denoted (r : Reg) (v : Int) : Option Rat := (config.row r).exp10.map (fun e => (v : Rat) * (10 : Rat) ^ e)

/-- The denoted value of a register of the block; none while it has no value (R21). -/
def State.denoted (s : State) (r : Reg) : Option Rat := (s.x.value r).bind (Sys2Proof.Machine.denoted r)

/-- The divisor of a scaled field: 100, 10 or 10^7 (R138). -/
def divisorOf (r : Reg) : Option Nat :=
  match (config.row r).exp10 with
  | none => none
  | some e => if e < 0 then some (10 ^ (-e).toNat) else none

/-- A positive rational, numerator and denominator. -/
structure Ratio where
  num : Nat
  den : Nat
  deriving DecidableEq, Repr

/-- The quotient rounded to the nearest integer, ties to even. -/
def divRoundEven (n d : Nat) : Nat :=
  let q := n / d
  let r := n % d
  if 2 * r < d then q else if 2 * r > d then q + 1 else if q % 2 = 0 then q else q + 1

/-- A positive number of 53 significant bits: `mant * 2^exp` with `2^52 <= mant < 2^53`. -/
structure Double where
  mant : Nat
  exp  : Int
  deriving DecidableEq, Repr

/-- `num * 2^k / den` as a numerator and a denominator, for a k of either sign. -/
def Ratio.scale (q : Ratio) (k : Int) : Ratio := ⟨q.num * 2 ^ k.toNat, q.den * 2 ^ (-k).toNat⟩

/-- The power of two at the head of a positive ratio: `2^k <= num / den < 2^(k+1)`. -/
def Ratio.log2 (q : Ratio) : Int :=
  let k : Int := (q.num.log2 : Int) - (q.den.log2 : Int)
  let t := q.scale (-k)
  if t.num < t.den then k - 1 else k

/-- The nearest number of 53 significant bits to a positive ratio, ties to even (R138). The exponent range of
binary64 is not looked at: every quotient of R138 lies far inside it. -/
def Ratio.round53 (q : Ratio) : Double :=
  let e := q.log2 - 52
  let t := q.scale (-e)
  let m := divRoundEven t.num t.den
  if m = 2 ^ 53 then ⟨2 ^ 52, e + 1⟩ else ⟨m, e⟩

/-- A number of 53 significant bits as a ratio. -/
def Double.ratio (x : Double) : Ratio := ⟨x.mant * 2 ^ x.exp.toNat, 2 ^ (-x.exp).toNat⟩

/-- The binary64 bits of `(-1)^neg * x`, for x in the normal range. -/
def Double.bits (neg : Bool) (x : Double) : BitVec 64 :=
  BitVec.ofNat 64 ((if neg then 2 ^ 63 else 0) + (x.exp + 52 + 1023).toNat * 2 ^ 52 + (x.mant - 2 ^ 52))

/-- The magnitude of the binary64 view of `n / d`, n > 0: one rounded division, or the product of n and the
rounded reciprocal, rounded (R138). -/
def magnitude64 (mode : F64Mode) (n d : Nat) : Double :=
  match mode with
  | .division => Ratio.round53 ⟨n, d⟩
  | .multiplication =>
    let c := (Ratio.round53 ⟨1, d⟩).ratio
    Ratio.round53 ⟨n * c.num, c.den⟩

/-- `F64(i)` (R138): the binary64 view of a scaled field, none for a register without a divisor. Zero is +0. -/
def f64 (mode : F64Mode) (r : Reg) (v : Int) : Option (BitVec 64) :=
  (divisorOf r).map (fun d =>
    if v = 0 then 0 else (magnitude64 mode v.natAbs d).bits (decide (v < 0)))

/-- The number a binary64 pattern denotes: zero, or a normal number; none for the patterns that are neither,
which no quotient of R138 gives ("No NaN, infinity, subnormal or negative zero can arise"). -/
def f64Value (b : BitVec 64) : Option Rat :=
  let e : Nat := (b.toNat / 2 ^ 52) % 2 ^ 11
  let frac : Nat := b.toNat % 2 ^ 52
  if b = 0 then some 0
  else if e = 0 ∨ e = 2047 then none
  else some ((if b.getLsbD 63 then -1 else 1) * ((2 ^ 52 + frac : Nat) : Rat) * (2 : Rat) ^ ((e : Int) - 1075))

/-- The binary64 view in the mode this hardware's users take (`F64_MODE`, R4). -/
def State.f64 (s : State) (r : Reg) : Option (BitVec 64) :=
  (s.x.value r).bind (Sys2Proof.Machine.f64 config.f64Mode r)

end Sys2Proof.Machine
end

