-- ==== Sys2Proof/Machine/DerivedHost.lean ====
section
/-! DEFINITION. The derived values of 45_derived_host.md: host-side reference, no part of the block. Each is a
relation between the record's integers and a real number, so that a case the source leaves open has no value
and nothing need be chosen there (U8, U10, U11, U12). -/
namespace Sys2Proof.Machine

/-- `theta` is `atan2(y, x)` in degrees: the angle of the point (x, y), in (-180, 180] (R160). The point (0, 0)
has no angle here: the source leaves it open (U11). -/
def IsAtan2Degrees (y x theta : ℝ) : Prop :=
  -180 < theta ∧ theta ≤ 180 ∧
    ∃ rho : ℝ, 0 < rho ∧ x = rho * Real.cos (theta * (Real.pi / 180)) ∧ y = rho * Real.sin (theta * (Real.pi / 180))

/-- acceleration_total_g = sqrt(ax^2 + ay^2 + az^2) / 1000 (R161). -/
def IsAccelerationTotalG (ax ay az : Int) (g : ℝ) : Prop :=
  g = Real.sqrt ((ax : ℝ) ^ 2 + (ay : ℝ) ^ 2 + (az : ℝ) ^ 2) / 1000

/-- magnetic_total = sqrt(mx^2 + my^2 + mz^2), raw units (R162). -/
def IsMagneticTotal (mx my mz : Int) (m : ℝ) : Prop :=
  m = Real.sqrt ((mx : ℝ) ^ 2 + (my : ℝ) ^ 2 + (mz : ℝ) ^ 2)

/-- altitude_m = 44330 * (1 - (P / 101325)^(1/5.255)) (R163). -/
def IsAltitudeM (P : Int) (h : ℝ) : Prop :=
  h = 44330 * (1 - ((P : ℝ) / 101325) ^ (1 / 5.255 : ℝ))

/-- roll_deg = atan2(ay, az) in degrees (R164). -/
def IsRollDeg (ay az : Int) (theta : ℝ) : Prop := IsAtan2Degrees ay az theta

/-- The second argument of the pitch formula, a parameter (U12): `literal` is the source's sqrt(ax^2 + ay^2);
the formula in common use would pass another function. -/
abbrev PitchFormula := Int → Int → Int → ℝ → Prop

/-- The pitch formula's second argument as the source writes it (R165). -/
def pitchLiteral : PitchFormula := fun ax ay _az d => d = Real.sqrt ((ax : ℝ) ^ 2 + (ay : ℝ) ^ 2)

/-- pitch_deg = atan2(-ax, d) in degrees with d from the formula (R165). -/
def IsPitchDeg (formula : PitchFormula) (ax ay az : Int) (theta : ℝ) : Prop :=
  ∃ d : ℝ, formula ax ay az d ∧ IsAtan2Degrees (-(ax : ℝ)) d theta

/-- yaw_deg = atan2(my, mx) in degrees, 0 if the magnetometer is unavailable (R166). How the host tells that is
open, so it is the caller's argument. -/
def IsYawDeg (available : Bool) (mx my : Int) (theta : ℝ) : Prop :=
  if available then IsAtan2Degrees my mx theta else theta = 0

/-- What speed_mps needs of a record: the coordinates in 1e-7 degree and the time in ms (R167). -/
structure Fix where
  lat  : Int
  lon  : Int
  time : Int
  deriving DecidableEq, Repr

/-- Which record's latitude enters the cosine of speed_mps: the source does not say (R167, U11). -/
inductive CosineLatitude where
  | current
  | previous
  deriving DecidableEq, Repr

/-- The parameters a host model takes for speed_mps: which latitude enters the cosine (U11), with no default, and
the speed of the first record of a stream, by default 0 (U8: "parameter with default 0, as the source says"). -/
structure SpeedParams where
  cosineLatitude   : CosineLatitude
  firstRecordSpeed : Rat := 0
  deriving DecidableEq, Repr

/-- The latitude that enters the cosine, in degrees: `lat` or `lat'` = x[12] / 10^7 (R167). -/
def CosineLatitude.degrees (c : CosineLatitude) (old new : Fix) : Rat :=
  match c with
  | .current => (new.lat : Rat) / 10000000
  | .previous => (old.lat : Rat) / 10000000

/-- speed_mps between two records of a stream (R167). There is no value for dt = 0 or dt < 0, which the source
leaves open (U11). -/
def IsSpeedBetween (c : CosineLatitude) (old new : Fix) (v : ℝ) : Prop :=
  old.time < new.time ∧
    v = Real.sqrt ((111320 * (((new.lat : ℝ) - old.lat) / 10000000)) ^ 2
          + (111320 * Real.cos ((c.degrees old new : ℝ) * (Real.pi / 180))
              * (((new.lon : ℝ) - old.lon) / 10000000)) ^ 2)
        / (((new.time : ℝ) - old.time) / 1000)

/-- speed_mps of a record of a stream: the first record, which has no record before it, has the parameter's speed,
by default 0 (R167: "first record of a stream: 0"; U8). -/
def IsSpeedMps (h : SpeedParams) (old : Option Fix) (new : Fix) (v : ℝ) : Prop :=
  match old with
  | none => v = (h.firstRecordSpeed : ℝ)
  | some o => IsSpeedBetween h.cosineLatitude o new v

/-- time_s = (t - t_first) / 1000, in seconds (R168, decision D26). -/
def timeS (tFirst t : Int) : Rat := ((t : Rat) - tFirst) / 1000

/-- timestamp: an absolute time with the first packet's `time_ms` as time zero (R169). What time zero is mapped
to is open (N15), so it is the caller's argument, in milliseconds. -/
def timestampMs (epochMs tFirst t : Int) : Int := epochMs + (t - tFirst)

end Sys2Proof.Machine
end

