-- ==== Sys2Proof/Machine/Boot.lean ====
section
/-! DEFINITION. Runs of the block under a host (R70, R216), and the power-on state (R20, R200), to which the
spec gives no meaning before the first RST: a run from it that does not begin with RST is refused (U2). -/
namespace Sys2Proof.Machine

/-- A run: the host makes the given actions one after another, starting in s (R70, R216). -/
def runActions (acts : List HostAction) (s : State) : Host.Outcome State Fault Refusal :=
  Host.Core.run Sys2Proof.core acts.length (s.withPending acts)

/-- A run of port words only. -/
def runWords (ws : List PortWord) (s : State) : Host.Outcome State Fault Refusal :=
  runActions (ws.map HostAction.present) s

/-- The state at power-on: every item of the block's state a free value (R20, R200; notes/assumptions/3.md). -/
def State.powerOn : State where
  fb := (List.range frameLen).foldl (fun m a => Memory.write m a (Config.powerOnByte a)) []
  cnt := Config.powerOnCnt
  x := {
    time := some (Config.powerOnReg .time)
    temp := some ((Config.powerOnReg .temp).setWidth 16)
    pres := some (Config.powerOnReg .pres)
    magX := some ((Config.powerOnReg .magX).setWidth 16)
    magY := some ((Config.powerOnReg .magY).setWidth 16)
    magZ := some ((Config.powerOnReg .magZ).setWidth 16)
    accX := some ((Config.powerOnReg .accX).setWidth 16)
    accY := some ((Config.powerOnReg .accY).setWidth 16)
    accZ := some ((Config.powerOnReg .accZ).setWidth 16)
    gyrX := some ((Config.powerOnReg .gyrX).setWidth 16)
    gyrY := some ((Config.powerOnReg .gyrY).setWidth 16)
    gyrZ := some ((Config.powerOnReg .gyrZ).setWidth 16)
    lat := some (Config.powerOnReg .lat)
    lon := some (Config.powerOnReg .lon)
    flags := some ((Config.powerOnReg .flags).setWidth 8) }
  outValid := Config.powerOnOutValid
  errLen := Config.powerOnErrLen
  pending := []
  events := []
  samples := []

/-- The first action is an RST step (H1, R203). -/
def beginsWithRst (acts : List HostAction) : Bool :=
  match acts with
  | .present w :: _ => decide (decodePort w = .rst)
  | .read _ :: _ => false
  | [] => false

/-- A run from power-on: refused unless its first action is an RST step (R200, R203, U2). -/
def runFromPowerOn (acts : List HostAction) : Host.Outcome State Fault Refusal :=
  if beginsWithRst acts then runActions acts State.powerOn else .refused .noResetSincePowerOn

end Sys2Proof.Machine
end

