-- ==== Sys2Proof/Safety.lean ====
section
/-! DEFINITION. What counts as a good state and a safe run, in the terms the statements use: the invariant of
the state, the host's duties H1, H2 and H6 (R205), and the words of a presentation (R78). -/
namespace Sys2Proof.Machine

/-- A record whose fifteen values lie in their raw ranges (R13). -/
def Record.inRange (c : Record) : Prop := ∀ r : Reg, inRawRange r (c.value r) = true

/-- The invariant of the block: `FB` in canonical form, the flags never both 1 (R17), the record present exactly
when `OUT_VALID` = 1 (R21) and then in its raw ranges (R13) and equal to the last event's, and `ERR_LEN` = 1
only after an error event (R15, R16). -/
structure State.Inv (s : State) : Prop where
  fbCanonical : Memory.wf s.fb
  flagsExclusive : ¬ (s.outValid = true ∧ s.errLen = true)
  recordPresent : s.outValid = true →
    ∃ c : Record, s.x = RegFile.ofRecord c ∧ c.inRange ∧ s.events.getLast? = some (.ok c)
  recordAbsent : s.outValid = false → s.x = RegFile.noValue
  errorSeen : s.errLen = true → s.events.getLast? = some (.err .invalidLength)

/-- The parts of the state a host can see: flags, record and event sequence. `FB` and `CNT` are hidden (R19). -/
def State.sameVisible (s t : State) : Prop :=
  s.outValid = t.outValid ∧ s.errLen = t.errLen ∧ s.x = t.x ∧ s.events = t.events

/-- A step that stops with a fault is the host's fault; a safe run makes none. -/
def SafeRun (acts : List HostAction) (s : State) : Prop := ∃ t, runActions acts s = .next t

/-- The operations run one after another in a state; used for the fifteen micro-operations of an OK completion,
which the block runs inside one step (R36, R75). -/
def runOps (ops : List Instr) (s : State) : Host.Outcome State Fault Refusal :=
  match ops with
  | [] => .next s
  | i :: rest =>
    match exec i s with
    | .next t => runOps rest t
    | .fault e => .fault e
    | .refused e => .refused e

/-- No port word of the list is an RST. -/
def noRst (ws : List PortWord) : Prop := ∀ w ∈ ws, decodePort w ≠ .rst

/-- No port word of the list ends a presentation. -/
def noPushl (ws : List PortWord) : Prop := ∀ w ∈ ws, (decodePort w).completes = false

/-- The byte a port word has accepted, with its last mark; none for RST and IDLE (R58, R72). -/
def acceptedByte (w : PortWord) : Option (Byte × Bool) :=
  match decodePort w with
  | .push b => some (b, false)
  | .pushl b => some (b, true)
  | .rst | .idle
  | .xTime | .xTemp | .xPres | .xMagX | .xMagY | .xMagZ | .xAccX | .xAccY | .xAccZ
  | .xGyrX | .xGyrY | .xGyrZ | .xLat | .xLon | .xFlags
  | .xFlagArmed | .xFlagGpsFix | .xFlagAltitudeHold | .xFlagBatteryLow | .xFlagSensorError
  | .xFlagRecoveryMode | .xFlagDataLogging | .xFlagTelemetryActive => none

/-- The words present exactly these bytes as one presentation, IDLE steps anywhere and no RST (R78, H7). -/
def Presents (ws : List PortWord) (bs : List Byte) : Prop :=
  noRst ws ∧ bs ≠ [] ∧
    ws.filterMap acceptedByte = bs.dropLast.map (fun b => (b, false)) ++ [(bs.getLastD 0, true)]

/-- A run is complete when the host has nothing left to do and no presentation is in progress (R216). -/
def State.complete (s : State) : Bool := s.pending.isEmpty && decide (s.cnt = 0)

end Sys2Proof.Machine
end

