-- ==== Sys2Proof/Certificates/Slice0/Obligations.lean ====
section
/-! DEFINITION. The statements about this model, from the spec's numbered rules. OBLIGATIONS.json lists them. -/

open Sys2Proof Sys2Proof.Machine

/-! ### Reset, the invariant, the step -/

/-- R20, R71: RST answers a next state in every state, and after it the counter, the flags and the record are as
in the state after reset: `CNT` 0, both flags 0, no register with a value. -/
def Obligations.RstReachesTheResetValues : Prop :=
  ∀ s : State, ∃ t : State, exec .rst s = .next t ∧
    t.cnt.val = 0 ∧ t.outValid = false ∧ t.errLen = false ∧ (∀ r : Reg, t.x.bits r = none) ∧
    t.cnt = State.reset.cnt ∧ t.outValid = State.reset.outValid ∧ t.errLen = State.reset.errLen ∧
    t.x = State.reset.x

/-- The state after reset meets the invariant. -/
def Obligations.ResetStateMeetsInv : Prop := State.reset.Inv

/-- Every step keeps the invariant: canonical frame buffer, flags never both 1 (R17), record present exactly when
`OUT_VALID` = 1 (R21), in its raw ranges (R13) and the last event's, `ERR_LEN` = 1 only after an error event. -/
def Obligations.StepKeepsInv : Prop :=
  ∀ s t : State, s.Inv → step s = .next t → t.Inv

/-- A step runs exactly the operation that the port word presented next decodes to (R70), or the view or port
that the host reads next, in the state without that action; with nothing pending, nothing happens. (The list of
pending actions is the model's own: notes/assumptions/1.md.) -/
def Obligations.StepRunsTheNextAction : Prop :=
  (∀ (s : State) (w : PortWord) (rest : List HostAction), s.pending = .present w :: rest →
      step s = exec (decodePort w) (s.withPending rest)) ∧
  (∀ (s : State) (f : Flag) (rest : List HostAction), s.pending = .read (.flag f) :: rest →
      step s = exec (viewOp f) (s.withPending rest)) ∧
  (∀ (s : State) (p : OutPort) (rest : List HostAction), s.pending = .read p :: rest →
      step s = (s.withPending rest).samplePort p) ∧
  (∀ s : State, s.pending = [] → step s = .next s)

/-- A word of the opcode table placed by `withFetchWord` is what the very next step runs: a port word's operation
alone; a frame, in the OK completion that runs all fifteen extractions on it (R75). (How a word is placed is the
model's choice: notes/assumptions/7.md and 8.md.) -/
def Obligations.PlacedWordIsRunByTheNextStep : Prop :=
  (∀ (s : State) (w : PortWord), decodeTableWord 16 w.toNat = some (decodePort w) ∧
    step (s.withFetchWord 16 w.toNat) = exec (decodePort w) s) ∧
  (∀ (s : State) (bs : List Byte), bs.length = 34 →
    ∃ t : State, step (s.withFetchWord 272 (frameOfBytes bs)) = .next t ∧
      t.x = RegFile.ofRecord (unpack bs) ∧ t.outValid = true ∧ t.errLen = false ∧
      t.events = s.events ++ [decodeBytes bs] ∧ t.pending = s.pending)

/-- R70: every port word is enabled in every state: the step that presents it answers a next state. -/
def Obligations.EveryPortWordIsEnabled : Prop :=
  ∀ (s : State) (w : PortWord) (rest : List HostAction), s.pending = .present w :: rest →
    ∃ t : State, step s = .next t ∧ t.pending = rest

/-- A step never is refused, and it faults only where the host reads a record port or flag view while the record
has no value, which in a state that meets the invariant is while `OUT_VALID` = 0 (R21, R208). -/
def Obligations.OnlyReadsWithoutRecordStop : Prop :=
  ∀ s : State, (∀ e : Refusal, step s ≠ .refused e) ∧
    ∀ e : Fault, step s = .fault e →
      ∃ (p : OutPort) (rest : List HostAction), s.pending = .read p :: rest ∧ e = .recordHasNoValue p ∧
        ((∃ r : Reg, p = .reg r) ∨ (∃ f : Flag, p = .flag f)) ∧ (s.Inv → s.outValid = false)

/-! ### Encodings -/

/-- R58: each of the 2048 port words selects exactly one of the four rows, and the decoder gives that row's
operation, with bits 7:0 as the byte of PUSH and PUSHL. -/
def Obligations.EveryPortWordSelectsOneRow : Prop :=
  ∀ w : PortWord,
    (∃ row : PortRow, portRows.filter (fun r => r.selects w) = [row] ∧ (decodePort w).portName = some row.name) ∧
    (w.getLsbD 10 = true → decodePort w = .rst) ∧
    (w.getLsbD 10 = false → w.getLsbD 9 = false → decodePort w = .idle) ∧
    (w.getLsbD 10 = false → w.getLsbD 9 = true → w.getLsbD 8 = false → decodePort w = .push (w.setWidth 8)) ∧
    (w.getLsbD 10 = false → w.getLsbD 9 = true → w.getLsbD 8 = true → decodePort w = .pushl (w.setWidth 8))

/-- Decoding an operation's encoding gives the operation back: alone for the format PORT, among the operations a
frame selects for the other two; and a port word is its operation's encoding in every bit the row does not ignore.
(The two bytes of a port word and the frame of zeros are the model's choice: notes/assumptions/7.md and 8.md.) -/
def Obligations.EncodeThenDecodeGivesTheOperation : Prop :=
  (∀ i : Instr, ∃ ops : List Instr, decode (encode i) = .ok ops ∧ i ∈ ops ∧ (i.format = .port → ops = [i])) ∧
  (∀ w : PortWord, ∃ v : PortWord, encodePort (decodePort w) = some v ∧ decodePort v = decodePort w ∧
    (w.getLsbD 10 = false → w.getLsbD 9 = true → v = w)) ∧
  (∀ bytes : List Byte, bytes.length = 34 → decode bytes = .ok (extractOps ++ viewOps))

/-- Port words written out bit by bit from R58 decode to the operations they stand for; so do two bytes that carry a
port word, low byte first, and a frame of 34 bytes selects all 23 operations of its two formats (R50, R62). (The two
bytes of a port word, which R58 stores nowhere, and a frame's answer with 23 operations are the model's choice:
notes/assumptions/7.md and 8.md.) -/
def Obligations.WrittenOutWordsDecode : Prop :=
  decodePort 0b10000000000 = .rst ∧ decodePort 0b11101010101 = .rst ∧
  decodePort 0b00000000000 = .idle ∧ decodePort 0b00111111111 = .idle ∧
  decodePort 0b01000101110 = .push 0x2E ∧ decodePort 0b01110000011 = .pushl 0x83 ∧
  decode [0x83, 0x03] = .ok [.pushl 0x83] ∧ decode (List.replicate 34 0xFF) = .ok (extractOps ++ viewOps)

/-- R61, R62: `LAYOUT_V7` is well formed, its frame masks are pairwise disjoint and cover all frame bits but 230,
231, 262 and 263; the source's literal 20-bit pressure row at bit 38 is not well formed beside magnetometer x. -/
def Obligations.LayoutV7IsWellFormed : Prop :=
  layoutV7.wf = true ∧ layoutV7.Pairwise (fun p q => p.frameMask &&& q.frameMask = 0) ∧
  layoutV7.usedMask = 2 ^ 272 - 1 - 2 ^ 230 - 2 ^ 231 - 2 ^ 262 - 2 ^ 263 ∧
  layoutV7.map FieldRow.reg = allRegs ∧
  Layout.wf [⟨.pres, 38, 20, false, 32, some 0⟩, rowMagX] = false

/-! ### The interface operations -/

/-- R71: a port word with bit 10 = 1 is RST, whatever its other bits. RST clears the counter, the flags and the
record, leaves `FB` alone, emits no event and does not raise `out_stb`. -/
def Obligations.RstEffect : Prop :=
  ∀ (s : State) (w : PortWord), w.getLsbD 10 = true →
    decodePort w = .rst ∧ (∀ rest, (s.withPending (.present w :: rest)).outStb = false) ∧
    exec .rst s = .next { s with cnt := 0, outValid := false, errLen := false, x := RegFile.noValue }

/-- R72: a port word with bits 10:9 = 00 is IDLE, whatever `in_last` and `in_data` are. IDLE changes no state,
emits no event and does not raise `out_stb`. -/
def Obligations.IdleEffect : Prop :=
  ∀ (s : State) (w : PortWord), w.getLsbD 10 = false → w.getLsbD 9 = false →
    decodePort w = .idle ∧ (∀ rest, (s.withPending (.present w :: rest)).outStb = false) ∧
    exec .idle s = .next s

/-- R73: PUSH stores its byte at `FB[CNT]` and counts while `CNT <= 33`; otherwise it discards the byte and the
counter is 35. The record, the flags and the events are unchanged. (Premise: `FB` in canonical form, which every
step keeps.) -/
def Obligations.PushEffect : Prop :=
  (∀ w : PortWord, w.getLsbD 10 = false → w.getLsbD 9 = true → w.getLsbD 8 = false →
    decodePort w = .push (w.setWidth 8)) ∧
  ∀ (s : State) (b : Byte), Memory.wf s.fb →
    (∀ rest, (s.withPending (.present (0b010#3 ++ b) :: rest)).outStb = false) ∧
    ∃ t : State, exec (.push b) s = .next t ∧
      (s.cnt.val ≤ 33 → t.cnt.val = s.cnt.val + 1 ∧ Memory.read t.fb s.cnt.val = b ∧
        ∀ a, a ≠ s.cnt.val → Memory.read t.fb a = Memory.read s.fb a) ∧
      (34 ≤ s.cnt.val → t.cnt.val = 35 ∧ ∀ a, Memory.read t.fb a = Memory.read s.fb a) ∧
      t.x = s.x ∧ t.outValid = s.outValid ∧ t.errLen = s.errLen ∧ t.events = s.events ∧
      t.samples = s.samples ∧ t.pending = s.pending

/-- R74: PUSHL stores its byte at `FB[CNT]` while `CNT <= 33` and nowhere otherwise, zeroes the counter, emits one
event with `out_stb` = 1, and completes OK exactly when `CNT` = 33; else InvalidLength. -/
def Obligations.PushlStoresAndCompletes : Prop :=
  (∀ w : PortWord, w.getLsbD 10 = false → w.getLsbD 9 = true → w.getLsbD 8 = true →
    decodePort w = .pushl (w.setWidth 8)) ∧
  ∀ (s : State) (b : Byte), Memory.wf s.fb →
    (∀ rest, (s.withPending (.present (0b011#3 ++ b) :: rest)).outStb = true) ∧
    ∃ t : State, exec (.pushl b) s = .next t ∧ t.cnt.val = 0 ∧
      (s.cnt.val ≤ 33 → Memory.read t.fb s.cnt.val = b ∧
        ∀ a, a ≠ s.cnt.val → Memory.read t.fb a = Memory.read s.fb a) ∧
      (34 ≤ s.cnt.val → ∀ a, Memory.read t.fb a = Memory.read s.fb a) ∧
      (s.cnt.val = 33 → t.outValid = true ∧ t.errLen = false ∧
        ∃ c : Record, t.x = RegFile.ofRecord c ∧ t.events = s.events ++ [.ok c]) ∧
      (s.cnt.val ≠ 33 → t.outValid = false ∧ t.errLen = true ∧ t.x = RegFile.noValue ∧
        t.events = s.events ++ [.err .invalidLength]) ∧
      t.samples = s.samples ∧ t.pending = s.pending

/-- R75: the OK completion writes all fifteen registers, each with its field of the 34 bytes now in `FB`, sets
`OUT_VALID`, clears `ERR_LEN` and emits the record. -/
def Obligations.OkCompletionWritesTheRecord : Prop :=
  ∀ (s : State) (b : Byte), s.cnt.val = 33 →
    ∃ t : State, exec (.pushl b) s = .next t ∧ t.outValid = true ∧ t.errLen = false ∧
      t.fb = memWrite s.fb 33 1 b.toNat ∧
      (∃ c : Record, t.events = s.events ++ [.ok c] ∧ ∀ r : Reg, t.x.value r = some (c.value r)) ∧
      t.x.value .time = some (zext (extractBits (frameOf t.fb) 0 24)) ∧
      t.x.value .temp = some (sext 14 (extractBits (frameOf t.fb) 24 14)) ∧
      t.x.value .pres = some (zext (extractBits (frameOf t.fb) 38 18)) ∧
      t.x.value .magX = some (sext 16 (extractBits (frameOf t.fb) 56 16)) ∧
      t.x.value .magY = some (sext 16 (extractBits (frameOf t.fb) 72 16)) ∧
      t.x.value .magZ = some (sext 16 (extractBits (frameOf t.fb) 88 16)) ∧
      t.x.value .accX = some (sext 16 (extractBits (frameOf t.fb) 104 16)) ∧
      t.x.value .accY = some (sext 16 (extractBits (frameOf t.fb) 120 16)) ∧
      t.x.value .accZ = some (sext 16 (extractBits (frameOf t.fb) 136 16)) ∧
      t.x.value .gyrX = some (sext 16 (extractBits (frameOf t.fb) 152 16)) ∧
      t.x.value .gyrY = some (sext 16 (extractBits (frameOf t.fb) 168 16)) ∧
      t.x.value .gyrZ = some (sext 16 (extractBits (frameOf t.fb) 184 16)) ∧
      t.x.value .lat = some (sext 30 (extractBits (frameOf t.fb) 200 30)) ∧
      t.x.value .lon = some (sext 30 (extractBits (frameOf t.fb) 232 30)) ∧
      t.x.value .flags = some (zext (extractBits (frameOf t.fb) 264 8))

/-- R76, R182: the error completion leaves no register with a value, clears `OUT_VALID`, sets `ERR_LEN` and emits one
`Err(InvalidLength)`; the PUSHL it belongs to zeroes the counter (R74). Every port that shows the record, the fifteen
record ports and the eight flag views, then faults when read: such a read yields nothing the spec gives (R21, R208), and
that it is a fault is read from R21 and U1 (DEDUCED, notes/assumptions/4.md). That a view's operation is the host's
reading of its output is the model's choice: notes/assumptions/5.md. -/
def Obligations.ErrorCompletionEffect : Prop :=
  ∀ (s : State) (b : Byte), s.cnt.val ≠ 33 →
    ∃ t : State, exec (.pushl b) s = .next t ∧ t.cnt.val = 0 ∧ t.outValid = false ∧ t.errLen = true ∧
      (∀ r : Reg, t.x.bits r = none) ∧ t.events = s.events ++ [.err .invalidLength] ∧
      (∀ r : Reg, t.samplePort (.reg r) = .fault (.recordHasNoValue (.reg r))) ∧
      (∀ f : Flag, exec (viewOp f) t = .fault (.recordHasNoValue (.flag f))) ∧
      t.samples = s.samples ∧ t.pending = s.pending

/-- R36, R75: the OK completion is the fifteen extractions run on the buffer with the last byte in place, in one
step; and the order among the fifteen is unobservable. -/
def Obligations.OkCompletionRunsTheExtractions : Prop :=
  (∀ (s : State) (b : Byte), s.cnt.val = 33 →
    ∃ t u : State, exec (.pushl b) s = .next t ∧ runOps extractOps (s.storeByte 33 b) = .next u ∧
      t.x = u.x ∧ t.fb = u.fb) ∧
  (∀ (ops : List Instr) (s : State), ops.Perm extractOps → runOps ops s = runOps extractOps s)

/-- R180, R181: a step raises InvalidLength exactly when it presents a PUSHL at `CNT` other than 33. -/
def Obligations.InvalidLengthExactlyOnWrongLength : Prop :=
  ∀ (s t : State) (w : PortWord) (rest : List HostAction), s.pending = .present w :: rest → step s = .next t →
    (t.events = s.events ++ [.err .invalidLength] ↔ (∃ b : Byte, decodePort w = .pushl b) ∧ s.cnt.val ≠ 33)

/-- R184 (a): with `rst` = 1 the byte of the same step is not accepted, no completion happens and nothing is
raised, whatever `in_valid` and `in_last` are. -/
def Obligations.RstBeatsAByteOfTheSameStep : Prop :=
  ∀ (s : State) (w : PortWord) (rest : List HostAction), w.getLsbD 10 = true → s.pending = .present w :: rest →
    s.outStb = false ∧ ∃ t : State, step s = .next t ∧ t.cnt.val = 0 ∧ t.fb = s.fb ∧ t.events = s.events ∧
      t.errLen = false ∧ t.outValid = false

/-! ### What a step of any kind can change -/

/-- R79, R185: a step with `out_stb` = 1 appends exactly one event, every other step appends none. -/
def Obligations.OneEventPerStrobe : Prop :=
  ∀ s t : State, step s = .next t →
    (s.outStb = true → ∃ e : Event, t.events = s.events ++ [e]) ∧ (s.outStb = false → t.events = s.events)

/-- R14, R15, R16: only RST and the two completions change the record registers or a flag. -/
def Obligations.OnlyRstAndCompletionsWriteTheRecord : Prop :=
  ∀ s t : State, step s = .next t → (t.x ≠ s.x ∨ t.outValid ≠ s.outValid ∨ t.errLen ≠ s.errLen) →
    ∃ (w : PortWord) (rest : List HostAction), s.pending = .present w :: rest ∧
      (decodePort w = .rst ∨ (decodePort w).completes = true)

/-- R30, R34: the only store address ever used is the current value of `CNT`, at most 33, by a PUSH or a PUSHL. -/
def Obligations.StoresGoToTheCounterOnly : Prop :=
  ∀ (s t : State) (a : Nat), Memory.wf s.fb → step s = .next t → Memory.read t.fb a ≠ Memory.read s.fb a →
    a = s.cnt.val ∧ a ≤ 33 ∧ ∃ (w : PortWord) (rest : List HostAction) (b : Byte),
      s.pending = .present w :: rest ∧ (decodePort w = .push b ∨ decodePort w = .pushl b)

/-- R22, R15, R16: the two status ports always answer, and show `OUT_VALID` and `ERR_LEN`. A host read of any port
that answers changes nothing of the block; the reading is what the port shows, and it fits the port's width. (The list of readings is the model's own: notes/assumptions/1.md.) -/
def Obligations.ReadsChangeNothingOfTheBlock : Prop :=
  (∀ s : State,
    s.readPort .outValid = .ok s.outValid.toNat ∧
    s.samplePort .outValid = .next (s.noteSample ⟨.outValid, s.outValid.toNat⟩) ∧
    s.readPort .errLen = .ok s.errLen.toNat ∧
    s.samplePort .errLen = .next (s.noteSample ⟨.errLen, s.errLen.toNat⟩)) ∧
  ∀ (s t : State) (p : OutPort), s.samplePort p = .next t →
    t.fb = s.fb ∧ t.cnt = s.cnt ∧ t.x = s.x ∧ t.outValid = s.outValid ∧ t.errLen = s.errLen ∧
    t.events = s.events ∧ t.pending = s.pending ∧
    ∃ n : Nat, s.readPort p = .ok n ∧ n < 2 ^ p.width ∧ t.samples = s.samples ++ [⟨p, n⟩]

/-- R21, R208, U1: while `OUT_VALID` = 0 every read of a record port or flag view is the host's fault; while it is
1, in a state that meets the invariant, every such read answers. -/
def Obligations.RecordIsReadableExactlyWhenValid : Prop :=
  ∀ s : State,
    (s.outValid = false →
      (∀ r : Reg, s.samplePort (.reg r) = .fault (.recordHasNoValue (.reg r))) ∧
      (∀ f : Flag, exec (viewOp f) s = .fault (.recordHasNoValue (.flag f)))) ∧
    (s.Inv → s.outValid = true →
      (∀ r : Reg, ∃ n : Nat, s.x.bits r = some n ∧ s.samplePort (.reg r) = .next (s.noteSample ⟨.reg r, n⟩)) ∧
      (∀ f : Flag, ∃ b : BitVec 8, s.x.flags = some b ∧
        exec (viewOp f) s = .next (s.noteSample ⟨.flag f, (flagView f b).toNat⟩)))

/-- The canonical form makes equal buffers equal data: two canonical buffers that read alike are the same list.
(The form, and what an unlisted address reads as, are the model's: notes/assumptions/2.md.) -/
def Obligations.CanonicalBuffersAreEqualData : Prop :=
  ∀ m n : Memory, Memory.wf m → Memory.wf n → (∀ a, Memory.read m a = Memory.read n a) → m = n

/-! ### Frame bits, extraction, sign extension -/

/-- R31: `FRAME` is the sum of `FB[a] * 2^(8a)`, and frame bit k is bit (k mod 8) of `FB[k div 8]`; so
`time_ms` is `FB[0] + 256*FB[1] + 65536*FB[2]`. -/
def Obligations.FrameIsLittleEndian : Prop :=
  ∀ m : Memory,
    frameOf m = ((List.range 34).map (fun a => (Memory.read m a).toNat * 2 ^ (8 * a))).sum ∧
    extractBits (frameOf m) 0 24 =
      (Memory.read m 0).toNat + 256 * (Memory.read m 1).toNat + 65536 * (Memory.read m 2).toNat ∧
    ∀ k, k < 272 → (frameOf m).testBit k = (Memory.read m (k / 8)).getLsbD (k % 8)

/-- R90: EXTRACT is the w-bit field at bit o of the frame, and its byte-wise form, over only the bytes the field
touches, is equal to it. -/
def Obligations.ExtractEqualsItsBytewiseForm : Prop :=
  ∀ (m : Memory) (o w : Nat), 1 ≤ w → o + w ≤ 272 →
    extractBits (frameOf m) o w = (frameOf m / 2 ^ o) % 2 ^ w ∧
    ∃ v : Nat, memRead m (o / 8) ((o % 8 + w + 7) / 8) = some v ∧
      extractBits (frameOf m) o w = (v / 2 ^ (o % 8)) % 2 ^ w

/-- R91 (a), (c): a field is below 2^w, and it depends on frame bits o to o+w-1 and on no other bit. -/
def Obligations.ExtractDependsOnItsBitsOnly : Prop :=
  ∀ (F G o w : Nat), extractBits F o w < 2 ^ w ∧
    ((∀ k, o ≤ k → k < o + w → F.testBit k = G.testBit k) → extractBits F o w = extractBits G o w)

/-- R91 (d): in a well-formed table the fields are independent: any combination of field values is reached by
exactly one frame whose unused bits are 0. -/
def Obligations.FieldsOfAWellFormedTableAreIndependent : Prop :=
  ∀ (L : Layout) (v : Reg → Nat), L.wf = true → (∀ row ∈ L, v row.reg < 2 ^ row.width) →
    ∃ F : Nat, (F < 2 ^ 272 ∧ F &&& L.usedMask = F ∧ ∀ row ∈ L, extractBits F row.offset row.width = v row.reg) ∧
      ∀ G : Nat, G < 2 ^ 272 → G &&& L.usedMask = G →
        (∀ row ∈ L, extractBits G row.offset row.width = v row.reg) → G = F

/-- R110: sign extension tests the top bit of the field, bit N-1: clear, the value is v; set, it is v - 2^N. Every
signed row of `LAYOUT_V7` is this one rule at the row's declared width: 14, 16 or 30. -/
def Obligations.SignExtensionTestsTheFieldsTopBit : Prop :=
  (∀ n v : Nat, 1 ≤ n → v < 2 ^ n →
    (v < 2 ^ (n - 1) ↔ v.testBit (n - 1) = false) ∧
    (v.testBit (n - 1) = false → sext n v = (v : Int)) ∧
    (v.testBit (n - 1) = true → sext n v = (v : Int) - 2 ^ n)) ∧
  (∀ row ∈ layoutV7, row.signed = true → (row.width = 14 ∨ row.width = 16 ∨ row.width = 30) ∧
    ∀ F : Nat, fieldValue row F = sext row.width (extractBits F row.offset row.width))

/-- R123: range, inverse, register form and boundaries of sign extension, and that it is a bijection from N-bit
patterns to the signed range. -/
def Obligations.SignExtensionLaws : Prop :=
  ∀ n : Nat, 1 ≤ n →
    (∀ v : Nat, v < 2 ^ n → -(2 ^ (n - 1) : Int) ≤ sext n v ∧ sext n v ≤ (2 ^ (n - 1) : Int) - 1) ∧
    (∀ v : Nat, v < 2 ^ n → sext n v % 2 ^ n = (v : Int)) ∧
    (∀ z : Int, -(2 ^ (n - 1) : Int) ≤ z → z ≤ (2 ^ (n - 1) : Int) - 1 →
      ∃ v : Nat, (v < 2 ^ n ∧ sext n v = z) ∧ ∀ u : Nat, u < 2 ^ n → sext n u = z → u = v) ∧
    (∀ (m v k : Nat), n ≤ m → v < 2 ^ n → k < m →
      (BitVec.ofInt m (sext n v)).getLsbD k = if k < n then v.testBit k else v.testBit (n - 1)) ∧
    sext n 0 = 0 ∧ sext n (2 ^ (n - 1)) = -(2 ^ (n - 1) : Int) ∧ sext n (2 ^ n - 1) = -1 ∧
    (2 ≤ n → sext n (2 ^ (n - 1) - 1) = (2 ^ (n - 1) : Int) - 1)

/-- R54: each coordinate is the 32-bit little-endian word of its four bytes, low 30 bits: bytes 25 to 28 for
latitude, 29 to 32 for longitude. -/
def Obligations.CoordinatesAreMaskedWords : Prop :=
  ∀ m : Memory,
    (∃ W : Nat, memRead m 25 4 = some W ∧ extractBits (frameOf m) 200 30 = W % 2 ^ 30 ∧
      fieldValue rowLat (frameOf m) = sext 30 (W % 2 ^ 30)) ∧
    (∃ W : Nat, memRead m 29 4 = some W ∧ extractBits (frameOf m) 232 30 = W % 2 ^ 30 ∧
      fieldValue rowLon (frameOf m) = sext 30 (W % 2 ^ 30))

/-! ### The extraction operations: result, completion and frame -/

/-- R92: X.TIME answers a next state in which x[0] is `FB[0] + 256*FB[1] + 65536*FB[2]`, at most 16777215, so bits
31:24 are 0, and nothing else has changed. Its row: offset 0, width 24, unsigned. -/
def Obligations.XTimeEffect : Prop :=
  ∀ s : State,
    let v := (Memory.read s.fb 0).toNat + 256 * (Memory.read s.fb 1).toNat + 65536 * (Memory.read s.fb 2).toNat
    rowOf .time = ⟨.time, 0, 24, false, 32, some 0⟩ ∧
    extractBits (frameOf s.fb) 0 24 = v ∧ v ≤ 16777215 ∧
    (∀ k, 24 ≤ k → (BitVec.ofNat 32 v).getLsbD k = false) ∧
    exec .xTime s = .next { s with x := { s.x with time := some (BitVec.ofNat 32 v) } }

/-- R93: X.PRES answers a next state in which x[2] is `(FB[4] div 64) + 4*FB[5] + 1024*FB[6]`, the upper 18 bits of
the 32-bit word at bytes 3 to 6, at most 262143, and nothing else has changed. (The width 18 is the spec's decision
D9.) -/
def Obligations.XPresEffect : Prop :=
  ∀ s : State,
    let v := (Memory.read s.fb 4).toNat / 64 + 4 * (Memory.read s.fb 5).toNat + 1024 * (Memory.read s.fb 6).toNat
    rowOf .pres = ⟨.pres, 38, 18, false, 32, some 0⟩ ∧
    extractBits (frameOf s.fb) 38 18 = v ∧ v ≤ 262143 ∧
    (∀ k, 18 ≤ k → (BitVec.ofNat 32 v).getLsbD k = false) ∧
    (∃ W : Nat, memRead s.fb 3 4 = some W ∧ v = W / 2 ^ 14) ∧
    exec .xPres s = .next { s with x := { s.x with pres := some (BitVec.ofNat 32 v) } }

/-- R102: X.FLAGS answers a next state in which x[14] is `FB[33]`, and nothing else has changed. -/
def Obligations.XFlagsEffect : Prop :=
  ∀ s : State,
    rowOf .flags = ⟨.flags, 264, 8, false, 8, none⟩ ∧
    extractBits (frameOf s.fb) 264 8 = (Memory.read s.fb 33).toNat ∧
    exec .xFlags s = .next { s with x := { s.x with flags := some (Memory.read s.fb 33) } }

/-- R111: X.TEMP answers a next state in which x[1] is the 14-bit value v = `FB[3] + 256*(FB[4] mod 64)`, less 16384
if v is 8192 or more, in -8192 to 8191, with bits 15:14 equal to bit 13, and nothing else has changed. -/
def Obligations.XTempEffect : Prop :=
  ∀ s : State,
    let v := (Memory.read s.fb 3).toNat + 256 * ((Memory.read s.fb 4).toNat % 64)
    let z : Int := if v < 8192 then (v : Int) else (v : Int) - 16384
    rowOf .temp = ⟨.temp, 24, 14, true, 16, some (-2)⟩ ∧
    extractBits (frameOf s.fb) 24 14 = v ∧ v ≤ 16383 ∧ -8192 ≤ z ∧ z ≤ 8191 ∧
    (BitVec.ofInt 16 z).toInt = z ∧
    (BitVec.ofInt 16 z).getLsbD 14 = (BitVec.ofInt 16 z).getLsbD 13 ∧
    (BitVec.ofInt 16 z).getLsbD 15 = (BitVec.ofInt 16 z).getLsbD 13 ∧
    (BitVec.ofInt 16 z).getLsbD 13 = (Memory.read s.fb 4).getLsbD 5 ∧
    exec .xTemp s = .next { s with x := { s.x with temp := some (BitVec.ofInt 16 z) } }

/-- R112 to R120: each of the nine sensor words answers a next state in which its register's bit pattern is its two
bytes unchanged, low byte first, and nothing else has changed; as an integer that pattern is `sext_16` of the field. -/
def Obligations.SensorWordsEffect : Prop :=
  ∀ s : State,
    let w : Nat → BitVec 16 := fun a => Memory.read s.fb (a + 1) ++ Memory.read s.fb a
    ([Reg.magX, .magY, .magZ, .accX, .accY, .accZ, .gyrX, .gyrY, .gyrZ].map
        (fun r => ((rowOf r).offset, (rowOf r).width, (rowOf r).signed)) =
      [(56, 16, true), (72, 16, true), (88, 16, true), (104, 16, true), (120, 16, true), (136, 16, true),
       (152, 16, true), (168, 16, true), (184, 16, true)]) ∧
    (∀ p ∈ [(7, 56), (9, 72), (11, 88), (13, 104), (15, 120), (17, 136), (19, 152), (21, 168), (23, 184)],
      extractBits (frameOf s.fb) p.2 16
        = (Memory.read s.fb p.1).toNat + 256 * (Memory.read s.fb (p.1 + 1)).toNat ∧
      (w p.1).toInt = sext 16 (extractBits (frameOf s.fb) p.2 16)) ∧
    exec .xMagX s = .next { s with x := { s.x with magX := some (w 7) } } ∧
    exec .xMagY s = .next { s with x := { s.x with magY := some (w 9) } } ∧
    exec .xMagZ s = .next { s with x := { s.x with magZ := some (w 11) } } ∧
    exec .xAccX s = .next { s with x := { s.x with accX := some (w 13) } } ∧
    exec .xAccY s = .next { s with x := { s.x with accY := some (w 15) } } ∧
    exec .xAccZ s = .next { s with x := { s.x with accZ := some (w 17) } } ∧
    exec .xGyrX s = .next { s with x := { s.x with gyrX := some (w 19) } } ∧
    exec .xGyrY s = .next { s with x := { s.x with gyrY := some (w 21) } } ∧
    exec .xGyrZ s = .next { s with x := { s.x with gyrZ := some (w 23) } }

/-- R121, R122: X.LAT and X.LON answer next states in which x[12] and x[13] are the low 30 bits v of the words at
bytes 25 and 29, less 2^30 if v is 2^29 or more; bits 31:30 equal bit 29, the sign bit is bit 5 of the fourth byte,
and nothing else has changed. -/
def Obligations.CoordinatesEffect : Prop :=
  ∀ s : State,
    let v : Nat → Nat := fun a => ((Memory.read s.fb a).toNat + 2 ^ 8 * (Memory.read s.fb (a + 1)).toNat
      + 2 ^ 16 * (Memory.read s.fb (a + 2)).toNat + 2 ^ 24 * (Memory.read s.fb (a + 3)).toNat) % 2 ^ 30
    let z : Nat → Int := fun a => if v a < 536870912 then (v a : Int) else (v a : Int) - 1073741824
    (∀ a ∈ [25, 29], -536870912 ≤ z a ∧ z a ≤ 536870911 ∧ (BitVec.ofInt 32 (z a)).toInt = z a ∧
      (BitVec.ofInt 32 (z a)).getLsbD 30 = (BitVec.ofInt 32 (z a)).getLsbD 29 ∧
      (BitVec.ofInt 32 (z a)).getLsbD 31 = (BitVec.ofInt 32 (z a)).getLsbD 29 ∧
      (BitVec.ofInt 32 (z a)).getLsbD 29 = (Memory.read s.fb (a + 3)).getLsbD 5) ∧
    rowOf .lat = ⟨.lat, 200, 30, true, 32, some (-7)⟩ ∧ rowOf .lon = ⟨.lon, 232, 30, true, 32, some (-7)⟩ ∧
    extractBits (frameOf s.fb) 200 30 = v 25 ∧ extractBits (frameOf s.fb) 232 30 = v 29 ∧
    exec .xLat s = .next { s with x := { s.x with lat := some (BitVec.ofInt 32 (z 25)) } } ∧
    exec .xLon s = .next { s with x := { s.x with lon := some (BitVec.ofInt 32 (z 29)) } }

/-- R94 to R101: while the record is valid, each flag view answers a next state in which the host has read its bit of
x[14] and nothing of the block has changed; after an OK completion that bit is the frame bit of the rule. (The bit
numbers are the spec's decision D10. That a view's operation is the host's reading of its output, and that the reading
is noted in the list of samples, is the model's choice: notes/assumptions/5.md and 1.md.) -/
def Obligations.FlagViewsEffect : Prop :=
  (∀ (s : State) (b : BitVec 8), s.outValid = true → s.x.flags = some b →
    exec .xFlagArmed s = .next (s.noteSample ⟨.flag .armed, (b.getLsbD 0).toNat⟩) ∧
    exec .xFlagGpsFix s = .next (s.noteSample ⟨.flag .gpsFix, (b.getLsbD 1).toNat⟩) ∧
    exec .xFlagAltitudeHold s = .next (s.noteSample ⟨.flag .altitudeHold, (b.getLsbD 2).toNat⟩) ∧
    exec .xFlagBatteryLow s = .next (s.noteSample ⟨.flag .batteryLow, (b.getLsbD 3).toNat⟩) ∧
    exec .xFlagSensorError s = .next (s.noteSample ⟨.flag .sensorError, (b.getLsbD 4).toNat⟩) ∧
    exec .xFlagRecoveryMode s = .next (s.noteSample ⟨.flag .recoveryMode, (b.getLsbD 5).toNat⟩) ∧
    exec .xFlagDataLogging s = .next (s.noteSample ⟨.flag .dataLogging, (b.getLsbD 6).toNat⟩) ∧
    exec .xFlagTelemetryActive s = .next (s.noteSample ⟨.flag .telemetryActive, (b.getLsbD 7).toNat⟩)) ∧
  (∀ (F : Nat) (k : Nat), k < 8 → (unpackFrame F).flags.getLsbD k = F.testBit (264 + k))

/-! ### Frames, records, PACK -/

/-- R56: the four unused bits are ignored: two frames that agree on every other bit unpack to the same record. -/
def Obligations.UnusedBitsAreIgnored : Prop :=
  ∀ F G : Nat, (∀ k, k < 272 → k ≠ 230 → k ≠ 231 → k ≠ 262 → k ≠ 263 → F.testBit k = G.testBit k) →
    unpackFrame F = unpackFrame G

/-- R57, R77, R13: no frame of 34 bytes is illegal: each decodes to a record whose fifteen values lie in the raw ranges
of R13's table; and every other length, 0 included, is InvalidLength. -/
def Obligations.EveryFrameDecodesInRange : Prop :=
  allRegs.map (fun r => (rawMin r, rawMax r)) =
    [(0, 16777215), (-8192, 8191), (0, 262143)] ++ List.replicate 9 (-32768, 32767) ++
      [(-536870912, 536870911), (-536870912, 536870911), (0, 255)] ∧
  ∀ bs : List Byte,
    (bs.length = 34 → ∃ c : Record, decodeBytes bs = .ok c ∧ ∀ r : Reg, rawMin r ≤ c.value r ∧ c.value r ≤ rawMax r) ∧
    (bs.length ≠ 34 → decodeBytes bs = .err .invalidLength)

/-- R152: packing the record of a frame gives the frame back with its unused bits 0. -/
def Obligations.PackOfUnpackIsTheUsedBits : Prop :=
  ∀ f : List Byte, f.length = 34 →
    ∃ p : List Byte, pack (unpack f).value = some p ∧ p.length = 34 ∧
      frameOfBytes p = frameOfBytes f &&& (2 ^ 272 - 1 - 2 ^ 230 - 2 ^ 231 - 2 ^ 262 - 2 ^ 263)

/-- R153, R150: unpacking the packing of an in-range record gives the record back; a record outside the raw ranges is
refused. -/
def Obligations.UnpackOfPackIsTheRecord : Prop :=
  ∀ v : Reg → Int,
    ((∀ r : Reg, rawMin r ≤ v r ∧ v r ≤ rawMax r) →
      ∃ p : List Byte, pack v = some p ∧ p.length = 34 ∧ ∀ r : Reg, (unpack p).value r = v r) ∧
    ((∃ r : Reg, v r < rawMin r ∨ rawMax r < v r) → pack v = none)

/-- R61, R152, R153: both round-trip laws hold for every well-formed field table: packing the values of a frame gives
its used bits, and the values of a packing are the packed ones where they fit their fields. -/
def Obligations.RoundTripHoldsForEveryTable : Prop :=
  ∀ L : Layout, L.wf = true →
    (∀ F : Nat, packWith L (fun r => (valueWith L F r).getD 0) = F &&& L.usedMask) ∧
    (∀ v : Reg → Int,
      (∀ row ∈ L, if row.signed then -(2 ^ (row.width - 1) : Int) ≤ v row.reg ∧ v row.reg < (2 ^ (row.width - 1) : Int)
        else 0 ≤ v row.reg ∧ v row.reg < (2 ^ row.width : Int)) →
      ∀ row ∈ L, valueWith L (packWith L v) row.reg = some (v row.reg))

/-! ### Runs -/

/-- R78: from any state with `CNT` = 0, presenting bytes as one presentation, IDLE steps anywhere and no RST, emits
exactly one event, DECODE of the bytes; afterwards `CNT` = 0 and the flags and the record are that event's. (Premise:
`FB` in canonical form, which every step keeps.) -/
def Obligations.PresentationEmitsItsDecode : Prop :=
  ∀ (s : State) (ws : List PortWord) (bs : List Byte), Memory.wf s.fb → s.cnt.val = 0 → Presents ws bs →
    ∃ t : State, runWords ws s = .next t ∧ t.events = s.events ++ [decodeBytes bs] ∧ t.cnt.val = 0 ∧
      (bs.length = 34 → t.outValid = true ∧ t.errLen = false ∧ t.x = RegFile.ofRecord (unpack bs)) ∧
      (bs.length ≠ 34 → t.outValid = false ∧ t.errLen = true ∧ t.x = RegFile.noValue)

/-- R78, R183, R185: for a host that issues RST and then presentations, the event sequence is the DECODE of each, in
order: each result depends on its own presentation only. -/
def Obligations.RunEmitsTheDecodeOfEachPresentation : Prop :=
  ∀ (s : State) (w : PortWord) (ps : List (List PortWord × List Byte)), Memory.wf s.fb → decodePort w = .rst →
    (∀ p ∈ ps, Presents p.1 p.2) →
    ∃ t : State, runWords (w :: (ps.map Prod.fst).flatten) s = .next t ∧
      t.events = s.events ++ ps.map (fun p => decodeBytes p.2) ∧ t.complete = true

/-- R201: reset is complete. Two runs of the same port words after an RST, from any two states, emit the same events
and end with the same flags, record and counter: nothing from before the reset can be observed. -/
def Obligations.ResetForgetsEverythingBefore : Prop :=
  ∀ (s t : State) (w : PortWord) (ws : List PortWord), Memory.wf s.fb → Memory.wf t.fb → decodePort w = .rst →
    ∃ (s' t' : State) (es : List Event), runWords (w :: ws) s = .next s' ∧ runWords (w :: ws) t = .next t' ∧
      s'.events = s.events ++ es ∧ t'.events = t.events ++ es ∧ s'.outValid = t'.outValid ∧
      s'.errLen = t'.errLen ∧ s'.x = t'.x ∧ s'.cnt = t'.cnt

/-- R15, R16, R17: after an RST and any words without another, the flags report the last completion since the reset:
none, both 0; OK, `OUT_VALID` alone with that record in the registers; error, `ERR_LEN` alone and no record. -/
def Obligations.FlagsReportTheLastCompletion : Prop :=
  ∀ (s : State) (w : PortWord) (ws : List PortWord), decodePort w = .rst → noRst ws →
    ∃ (t : State) (es : List Event), runWords (w :: ws) s = .next t ∧ t.events = s.events ++ es ∧
      match es.getLast? with
      | none => t.outValid = false ∧ t.errLen = false ∧ t.x = RegFile.noValue
      | some (.ok c) => t.outValid = true ∧ t.errLen = false ∧ t.x = RegFile.ofRecord c
      | some (.err _) => t.outValid = false ∧ t.errLen = true ∧ t.x = RegFile.noValue

/-- R185, U3: any run of port words goes on to its end and emits exactly one event for each PUSHL in it; without a
PUSHL there is none, however long it goes on. -/
def Obligations.AsManyEventsAsLastMarks : Prop :=
  ∀ (s : State) (ws : List PortWord), ∃ (t : State) (es : List Event),
    runWords ws s = .next t ∧ t.events = s.events ++ es ∧
    es.length = (ws.filter (fun w => (decodePort w).completes)).length

/-- R12, R73: bytes presented without a last mark are counted up to 35, the first 34 stand in `FB` in order, and the
record and the flags of the presentation before stay as they were (R207). -/
def Obligations.BytesWithoutLastMarkOnlyCollect : Prop :=
  ∀ (s : State) (ws : List PortWord), Memory.wf s.fb → s.cnt.val = 0 → noRst ws → noPushl ws →
    ∃ t : State, runWords ws s = .next t ∧
      t.cnt.val = min (ws.filterMap acceptedByte).length 35 ∧
      (∀ a, a < min (ws.filterMap acceptedByte).length 34 →
        some (Memory.read t.fb a) = ((ws.filterMap acceptedByte)[a]?).map Prod.fst) ∧
      (∀ a, (ws.filterMap acceptedByte).length ≤ a → Memory.read t.fb a = Memory.read s.fb a) ∧
      t.x = s.x ∧ t.outValid = s.outValid ∧ t.errLen = s.errLen ∧ t.events = s.events

/-- R72, H7: IDLE steps may fall anywhere: taking them out of a run leaves its result the same. -/
def Obligations.IdleStepsAreInvisible : Prop :=
  ∀ (s : State) (ws : List PortWord),
    runWords (ws.filter (fun w => decide (decodePort w ≠ .idle))) s = runWords ws s

/-- R200, R203, U2: a run from power-on that does not begin with an RST step is refused; one that does is, whatever
follows the RST, the run of what follows from a state with the reset values, nothing emitted or read, and `FB` as at
power-on. (The free power-on state and the refusal's name are the model's: notes/assumptions/3.md.) -/
def Obligations.PowerOnRunsBeginWithRst : Prop :=
  (∀ acts : List HostAction, beginsWithRst acts = false → runFromPowerOn acts = .refused .noResetSincePowerOn) ∧
  (∀ (w : PortWord) (rest : List HostAction), decodePort w = .rst →
    ∃ t : State, runFromPowerOn (.present w :: rest) = runActions rest t ∧
      t.cnt = State.reset.cnt ∧ t.outValid = State.reset.outValid ∧ t.errLen = State.reset.errLen ∧
      t.x = State.reset.x ∧ t.fb = State.powerOn.fb ∧ t.events = [] ∧ t.samples = [])

/-! ### Scaling and the host-side reference -/

/-- R130: what each register denotes: `x[i] * 10^e(i)`, hundredths for temperature, tenths for the gyroscope,
1e-7 for the coordinates, 1 for time, pressure, magnetometer and accelerometer, nothing for flags. -/
def Obligations.DenotedValues : Prop :=
  ∀ v : Int,
    denoted .time v = some (v : Rat) ∧ denoted .temp v = some ((v : Rat) / 100) ∧
    denoted .pres v = some (v : Rat) ∧
    (∀ r ∈ [Reg.magX, .magY, .magZ, .accX, .accY, .accZ], denoted r v = some (v : Rat)) ∧
    (∀ r ∈ [Reg.gyrX, .gyrY, .gyrZ], denoted r v = some ((v : Rat) / 10)) ∧
    (∀ r ∈ [Reg.lat, .lon], denoted r v = some ((v : Rat) / 10000000)) ∧
    denoted .flags v = none

/-- R139: for each scaled field the map from raw value to denoted value is strictly increasing, keeps zero, and the
raw value is recovered as `VAL(i) * 10^(-e(i))`. -/
def Obligations.DenotedValueDeterminesTheRawValue : Prop :=
  ∀ (r : Reg) (e : Int), (rowOf r).exp10 = some e → ∀ v u : Int, ∃ a b : Rat,
    denoted r v = some a ∧ denoted r u = some b ∧ (v < u ↔ a < b) ∧ (a = 0 ↔ v = 0) ∧
    (v : Rat) = a * (10 : Rat) ^ (-e)

/-- R138: the binary64 view of every raw value of a scaled field is zero or a normal number; in either mode it lies
within 2^-51 relative of the denoted value, by division within 2^-53, and zero is +0. (R138's sentences on binary64
are marked 'from general knowledge, not in source', and the rounding and the 64 bits are the model's own arithmetic,
PRESUMED: notes/assumptions/11.md.) -/
def Obligations.BinaryViewIsClose : Prop :=
  ∀ (mode : F64Mode) (r : Reg) (d : Nat) (v : Int), divisorOf r = some d → rawMin r ≤ v → v ≤ rawMax r →
    ∃ (bits : BitVec 64) (q : Rat), f64 mode r v = some bits ∧ f64Value bits = some q ∧
      |q - (v : Rat) / d| ≤ (2 : Rat) ^ (-51 : Int) * |(v : Rat) / d| ∧
      (mode = .division → |q - (v : Rat) / d| ≤ (2 : Rat) ^ (-53 : Int) * |(v : Rat) / d|) ∧
      (v = 0 → bits = 0)

/-- The angle of a point, as R160 gives it from general knowledge (range (-180, 180] degrees), is defined, and only
one, off the origin. That `atan2(0, 0)` has no value is the model's choice where R160 leaves the case open (U11):
notes/assumptions/12.md. -/
def Obligations.AngleExistsExactlyOffTheOrigin : Prop :=
  (∀ y x : ℝ, (y ≠ 0 ∨ x ≠ 0) → ∃ theta : ℝ, IsAtan2Degrees y x theta ∧ ∀ u : ℝ, IsAtan2Degrees y x u → u = theta) ∧
  (∀ theta : ℝ, ¬ IsAtan2Degrees 0 0 theta)

/-- R163: the altitude is 0 at 101325 Pa, 44330 at 0 Pa, and negative above 101325 Pa. -/
def Obligations.AltitudeAtItsLandmarks : Prop :=
  IsAltitudeM 101325 0 ∧ IsAltitudeM 0 44330 ∧
  ∀ (P : Int) (h : ℝ), 101325 < P → IsAltitudeM P h → h < 0

/-- R164, R165, R166, R161: the source's attitude formulas on the rules' own example vectors: (0, 0, 1000) mG is 1 g;
roll is 0 at (ay, az) = (0, 1000) and 90 at (1000, 0); ax > 0 with ay = 0 has pitch -45 whatever az is; yaw is 0 where
the magnetometer is unavailable. That a level device has no pitch, the formula taken as written, is the model's choice
where R165 leaves `atan2(0, 0)` open (U11, U12): notes/assumptions/12.md. -/
def Obligations.AttitudeFormulasOnTheExamples : Prop :=
  IsAccelerationTotalG 0 0 1000 1 ∧ IsRollDeg 0 1000 0 ∧ IsRollDeg 1000 0 90 ∧
  (∀ theta : ℝ, ¬ IsPitchDeg pitchLiteral 0 0 1000 theta) ∧
  (∀ ax az : Int, 0 < ax → IsPitchDeg pitchLiteral ax 0 az (-45)) ∧
  (∀ mx my : Int, IsYawDeg false mx my 0)

/-! ### The block in any configuration -/

/-- R4, R213, U5: the field table, the pressure width and the flag numbering are inputs of the block. In every
well-formed configuration an OK completion leaves each register with the value of its row, the pressure row at
`PRES_WIDTH` bits, and a flag view then shows its condition's bit of the configuration's numbering; this hardware is
the block in the configuration of R4. (The checks of a well-formed configuration, beside R61, are the model's:
notes/assumptions/16.md.) -/
def Obligations.AnotherConfigurationIsTheSameMachine : Prop :=
  (∀ s : State, stepWith config s = step s) ∧
  (∀ (i : Instr) (s : State), execWith config i s = exec i s) ∧
  config = ⟨layoutV7, 18, flagOrder, .division⟩ ∧ config.wf = true ∧
  ∀ (C : Configuration) (s : State) (w : PortWord) (b : Byte) (rest : List HostAction), C.wf = true →
    s.cnt.val = 33 → s.pending = .present w :: rest → decodePort w = .pushl b →
    ∃ t : State, stepWith C s = .next t ∧ t.outValid = true ∧ t.fb = memWrite s.fb 33 1 b.toNat ∧
      (∀ r : Reg, ∃ row ∈ C.layout, row.reg = r ∧
        t.x.value r = some (fieldValue (if r = .pres then { row with width := C.presWidth } else row) (frameOf t.fb))) ∧
      (∀ f : Flag, ∃ (k : Nat) (c : BitVec 8), C.flagOrder[k]? = some f ∧ k < 8 ∧ t.x.flags = some c ∧
        execWith C (viewOp f) t = .next (t.noteSample ⟨.flag f, (c.getLsbD k).toNat⟩))
end

