-- ==== Sys2Proof/Laws/Config.lean ====
section
/-! SUPPORT. The parameters and the configuration of this hardware, read once: the constants of R4, the rows of
`LAYOUT_V7`, the register widths and raw ranges of R13, the bit numbers of R55. -/
namespace Sys2Proof

@[simp] theorem params_frameLen : params.frameLen = 34 := rfl
@[simp] theorem params_cntOvf : params.cntOvf = 35 := rfl

/-- The constants of R4 agree with each other and with the types of the state. -/
theorem params_consistent :
    params.frameBits = params.frameLen * params.byteBits ∧ params.cntOvf = params.frameLen + 1 ∧
      params.cntOvf < 2 ^ params.cntBits ∧ params.nReg = allRegs.length ∧ params.regWidths.length = params.nReg := by
  decide

/-- This hardware's rows are `LAYOUT_V7`: the table's own pressure width is `PRES_WIDTH` (R51, R93). -/
@[simp] theorem config_rows : config.rows = layoutV7 := rfl

/-- The row of a register is its row of `LAYOUT_V7` (R51). -/
@[simp] theorem config_row (r : Reg) : config.row r = rowOf r := by cases r <;> rfl

/-- This hardware's configuration is well formed. -/
theorem config_wf : config.wf = true := by decide

/-- The bit numbers of R55 (decision D10). -/
theorem config_flagBit : allFlags.map config.flagBit = [0, 1, 2, 3, 4, 5, 6, 7] := by decide

/-- The register widths of R13. -/
theorem regWidth_eq (r : Reg) : regWidth r = (match r with
    | .time | .pres | .lat | .lon => 32
    | .temp | .magX | .magY | .magZ | .accX | .accY | .accZ | .gyrX | .gyrY | .gyrZ => 16
    | .flags => 8) := by
  cases r <;> rfl

/-- What `Layout.wf` says of one row (R61). -/
theorem Layout.row_of_wf {L : Layout} (hL : L.wf = true) {row : FieldRow} (hr : row ∈ L) :
    1 ≤ row.width ∧ row.offset + row.width ≤ 272 ∧ row.width ≤ row.regWidth := by
  induction L with
  | nil => simp at hr
  | cons q L ih =>
    simp only [Layout.wf, FieldRow.wf, Bool.and_eq_true, decide_eq_true_eq] at hL
    rcases List.mem_cons.1 hr with rfl | hr
    · exact ⟨hL.1.1.1.1, hL.1.1.1.2, hL.1.1.2⟩
    · exact ih hL.2 hr

/-- What the conjuncts of `Configuration.wf` say of the row of a register. -/
theorem Configuration.row_of_wf {C : Configuration} (h : C.wf = true) (r : Reg) :
    C.rows.wf = true ∧ C.row r ∈ C.rows ∧ (C.row r).reg = r ∧ (C.row r).regWidth = regWidth r ∧
      (C.row r).signed = regSigned r := by
  simp only [Configuration.wf, Bool.and_eq_true, List.all_eq_true, decide_eq_true_eq] at h
  obtain ⟨⟨⟨⟨⟨⟨hw, -⟩, hall⟩, hrows⟩, -⟩, -⟩, -⟩ := h
  have hr := hall r (by cases r <;> decide)
  obtain ⟨q, hq⟩ : ∃ q, C.rows.find? (fun row => row.reg = r) = some q := by
    rw [← Option.isSome_iff_exists, List.find?_isSome]
    simpa using hr
  have e : C.row r = q := by rw [Configuration.row, hq, Option.getD_some]
  have hm := List.mem_of_find?_eq_some hq
  have hreg : q.reg = r := by simpa using List.find?_some hq
  rw [e, ← hreg]
  exact ⟨hw, hm, rfl, hrows q hm⟩

/-- In a well-formed configuration a register's row is a row of the field table, the pressure row at `PRES_WIDTH`. -/
theorem Configuration.layout_row_of_wf {C : Configuration} (h : C.wf = true) (r : Reg) :
    ∃ row ∈ C.layout, row.reg = r ∧ C.row r = if r = .pres then { row with width := C.presWidth } else row := by
  obtain ⟨-, hm, hr, -⟩ := Configuration.row_of_wf h r
  obtain ⟨row, hrow, he⟩ := List.mem_map.1 hm
  have hreg : row.reg = r := by
    rw [← hr, ← he]
    split <;> rfl
  exact ⟨row, hrow, hreg, by rw [← he, hreg]⟩

/-- In a well-formed configuration every condition has a bit of the flags byte, and no two the same (R55). -/
theorem Configuration.flagBit_of_wf {C : Configuration} (h : C.wf = true) (f : Flag) :
    C.flagBit f < 8 ∧ C.flagOrder[C.flagBit f]? = some f := by
  simp only [Configuration.wf, Bool.and_eq_true, List.all_eq_true, decide_eq_true_eq] at h
  obtain ⟨⟨-, hl⟩, hf⟩ := h
  have hi := List.idxOf_lt_length_iff.2 (show f ∈ C.flagOrder by simpa using hf f (by cases f <;> decide))
  exact ⟨hl ▸ hi, by rw [Configuration.flagBit, List.getElem?_eq_getElem hi, List.getElem_idxOf]⟩

namespace Machine

/-- The raw ranges of R13's table. -/
theorem rawMin_eq (r : Reg) : rawMin r = (match r with
    | .time | .pres | .flags => 0
    | .temp => -8192
    | .magX | .magY | .magZ | .accX | .accY | .accZ | .gyrX | .gyrY | .gyrZ => -32768
    | .lat | .lon => -536870912) := by
  rw [rawMin, config_row]
  cases r <;> decide

theorem rawMax_eq (r : Reg) : rawMax r = (match r with
    | .time => 16777215
    | .temp => 8191
    | .pres => 262143
    | .magX | .magY | .magZ | .accX | .accY | .accZ | .gyrX | .gyrY | .gyrZ => 32767
    | .lat | .lon => 536870911
    | .flags => 255) := by
  rw [rawMax, config_row]
  cases r <;> decide

end Machine
end Sys2Proof
end

