-- ==== Sys2Proof/Laws/Encoding.lean ====
section
/-! SUPPORT. The port word and its fields: what an encoded PUSH or PUSHL decodes to, and the decoder by the three
bits it reads (R58). -/
namespace Sys2Proof

/-- The high three bits of a port word with a byte below them, each its own (R58). -/
theorem port_getLsbD (h : BitVec 3) (b : Byte) (k : Nat) : (h ++ b : PortWord).getLsbD (8 + k) = h.getLsbD k := by
  rw [BitVec.getLsbD_append, if_neg (by omega), Nat.add_sub_cancel_left]

/-- The low byte of a port word (R58). -/
theorem port_low (h : BitVec 3) (b : Byte) : (h ++ b : PortWord).setWidth 8 = b :=
  BitVec.setWidth_append_eq_right

/-- A port word is its three control bits and its byte (R58). -/
theorem port_split (w : PortWord) : ∃ (h : BitVec 3) (b : Byte), w = h ++ b :=
  ⟨w.extractLsb' 8 3, w.setWidth 8, by
    apply BitVec.eq_of_getLsbD_eq
    intro i hi
    rw [BitVec.getLsbD_append]
    by_cases h8 : i < 8
    · simp [h8]
    · rw [if_neg h8, BitVec.getLsbD_extractLsb', decide_eq_true (by omega : i - 8 < 3), Bool.true_and]
      congr 1
      omega⟩

/-- The decoder by the control bits rst, in_valid, in_last (R58). -/
theorem decodePort_append (h : BitVec 3) (b : Byte) :
    decodePort (h ++ b) =
      if h.getLsbD 2 then .rst
      else if h.getLsbD 1 then (if h.getLsbD 0 then .pushl b else .push b)
      else .idle := by
  have h10 := port_getLsbD h b 2
  have h9 := port_getLsbD h b 1
  have h8 := port_getLsbD h b 0
  rw [decodePort, h10, h9, h8, port_low]

theorem decodePort_push (b : Byte) : decodePort (0b010#3 ++ b) = .push b := decodePort_append _ b
theorem decodePort_pushl (b : Byte) : decodePort (0b011#3 ++ b) = .pushl b := decodePort_append _ b

end Sys2Proof
end

