-- ==== Sys2Proof/Laws/State.lean ====
section
/-! SUPPORT. One lemma per field of State per update, true by rfl, so that no proof unfolds a record update. -/
namespace Sys2Proof.Machine.State

variable (s : State)

@[simp] theorem withFb_fb (m : Memory) : (s.withFb m).fb = m := rfl
@[simp] theorem withFb_cnt (m : Memory) : (s.withFb m).cnt = s.cnt := rfl
@[simp] theorem withFb_x (m : Memory) : (s.withFb m).x = s.x := rfl
@[simp] theorem withFb_outValid (m : Memory) : (s.withFb m).outValid = s.outValid := rfl
@[simp] theorem withFb_errLen (m : Memory) : (s.withFb m).errLen = s.errLen := rfl
@[simp] theorem withFb_pending (m : Memory) : (s.withFb m).pending = s.pending := rfl
@[simp] theorem withFb_events (m : Memory) : (s.withFb m).events = s.events := rfl
@[simp] theorem withFb_samples (m : Memory) : (s.withFb m).samples = s.samples := rfl

@[simp] theorem withCnt_fb (c : Fin 36) : (s.withCnt c).fb = s.fb := rfl
@[simp] theorem withCnt_cnt (c : Fin 36) : (s.withCnt c).cnt = c := rfl
@[simp] theorem withCnt_x (c : Fin 36) : (s.withCnt c).x = s.x := rfl
@[simp] theorem withCnt_outValid (c : Fin 36) : (s.withCnt c).outValid = s.outValid := rfl
@[simp] theorem withCnt_errLen (c : Fin 36) : (s.withCnt c).errLen = s.errLen := rfl
@[simp] theorem withCnt_pending (c : Fin 36) : (s.withCnt c).pending = s.pending := rfl
@[simp] theorem withCnt_events (c : Fin 36) : (s.withCnt c).events = s.events := rfl
@[simp] theorem withCnt_samples (c : Fin 36) : (s.withCnt c).samples = s.samples := rfl

@[simp] theorem withRegs_fb (x : RegFile) : (s.withRegs x).fb = s.fb := rfl
@[simp] theorem withRegs_cnt (x : RegFile) : (s.withRegs x).cnt = s.cnt := rfl
@[simp] theorem withRegs_x (x : RegFile) : (s.withRegs x).x = x := rfl
@[simp] theorem withRegs_outValid (x : RegFile) : (s.withRegs x).outValid = s.outValid := rfl
@[simp] theorem withRegs_errLen (x : RegFile) : (s.withRegs x).errLen = s.errLen := rfl
@[simp] theorem withRegs_pending (x : RegFile) : (s.withRegs x).pending = s.pending := rfl
@[simp] theorem withRegs_events (x : RegFile) : (s.withRegs x).events = s.events := rfl
@[simp] theorem withRegs_samples (x : RegFile) : (s.withRegs x).samples = s.samples := rfl

@[simp] theorem withFlags_fb (v e : Bool) : (s.withFlags v e).fb = s.fb := rfl
@[simp] theorem withFlags_cnt (v e : Bool) : (s.withFlags v e).cnt = s.cnt := rfl
@[simp] theorem withFlags_x (v e : Bool) : (s.withFlags v e).x = s.x := rfl
@[simp] theorem withFlags_outValid (v e : Bool) : (s.withFlags v e).outValid = v := rfl
@[simp] theorem withFlags_errLen (v e : Bool) : (s.withFlags v e).errLen = e := rfl
@[simp] theorem withFlags_pending (v e : Bool) : (s.withFlags v e).pending = s.pending := rfl
@[simp] theorem withFlags_events (v e : Bool) : (s.withFlags v e).events = s.events := rfl
@[simp] theorem withFlags_samples (v e : Bool) : (s.withFlags v e).samples = s.samples := rfl

@[simp] theorem withPending_fb (p : List HostAction) : (s.withPending p).fb = s.fb := rfl
@[simp] theorem withPending_cnt (p : List HostAction) : (s.withPending p).cnt = s.cnt := rfl
@[simp] theorem withPending_x (p : List HostAction) : (s.withPending p).x = s.x := rfl
@[simp] theorem withPending_outValid (p : List HostAction) : (s.withPending p).outValid = s.outValid := rfl
@[simp] theorem withPending_errLen (p : List HostAction) : (s.withPending p).errLen = s.errLen := rfl
@[simp] theorem withPending_pending (p : List HostAction) : (s.withPending p).pending = p := rfl
@[simp] theorem withPending_events (p : List HostAction) : (s.withPending p).events = s.events := rfl
@[simp] theorem withPending_samples (p : List HostAction) : (s.withPending p).samples = s.samples := rfl

@[simp] theorem emit_fb (e : Event) : (s.emit e).fb = s.fb := rfl
@[simp] theorem emit_cnt (e : Event) : (s.emit e).cnt = s.cnt := rfl
@[simp] theorem emit_x (e : Event) : (s.emit e).x = s.x := rfl
@[simp] theorem emit_outValid (e : Event) : (s.emit e).outValid = s.outValid := rfl
@[simp] theorem emit_errLen (e : Event) : (s.emit e).errLen = s.errLen := rfl
@[simp] theorem emit_pending (e : Event) : (s.emit e).pending = s.pending := rfl
@[simp] theorem emit_events (e : Event) : (s.emit e).events = s.events ++ [e] := rfl
@[simp] theorem emit_samples (e : Event) : (s.emit e).samples = s.samples := rfl

@[simp] theorem noteSample_fb (r : Sample) : (s.noteSample r).fb = s.fb := rfl
@[simp] theorem noteSample_cnt (r : Sample) : (s.noteSample r).cnt = s.cnt := rfl
@[simp] theorem noteSample_x (r : Sample) : (s.noteSample r).x = s.x := rfl
@[simp] theorem noteSample_outValid (r : Sample) : (s.noteSample r).outValid = s.outValid := rfl
@[simp] theorem noteSample_errLen (r : Sample) : (s.noteSample r).errLen = s.errLen := rfl
@[simp] theorem noteSample_pending (r : Sample) : (s.noteSample r).pending = s.pending := rfl
@[simp] theorem noteSample_events (r : Sample) : (s.noteSample r).events = s.events := rfl
@[simp] theorem noteSample_samples (r : Sample) : (s.noteSample r).samples = s.samples ++ [r] := rfl

@[simp] theorem flagsCleared_eq : s.flagsCleared = s.withFlags false false := rfl
@[simp] theorem flagsOk_eq : s.flagsOk = s.withFlags true false := rfl
@[simp] theorem flagsErr_eq : s.flagsErr = s.withFlags false true := rfl

end Sys2Proof.Machine.State
end

