-- ==== Sys2Proof/Laws/Memory.lean ====
section
/-! SUPPORT. The laws of the frame buffer: read after write, and that every write keeps the canonical form
(R11, R30, R34). -/
namespace Sys2Proof.Machine

@[simp] theorem Memory.read_nil (a : Nat) : Memory.read [] a = unlistedByte := rfl

theorem Memory.read_cons (k : Nat) (b : Byte) (m : Memory) (a : Nat) :
    Memory.read ((k, b) :: m) a = if a = k then b else Memory.read m a := rfl

/-- An address below every listed one reads as an unlisted address. -/
theorem Memory.read_of_lt {m : Memory} {a : Nat} (h : ∀ p ∈ m, a < p.1) : Memory.read m a = unlistedByte := by
  induction m with
  | nil => rfl
  | cons p m ih =>
    have hp : a < p.1 := h p (by simp)
    rw [show p = (p.1, p.2) from rfl, Memory.read_cons, if_neg (by omega)]
    exact ih fun q hq => h q (by simp [hq])

/-- Read after write (R7): the written address reads the byte, every other address reads as before. -/
theorem Memory.read_write {m : Memory} (h : m.Pairwise (fun p q => p.1 < q.1)) (a : Nat) (b : Byte) (c : Nat) :
    Memory.read (Memory.write m a b) c = if c = a then b else Memory.read m c := by
  induction m with
  | nil =>
    by_cases hb : b = unlistedByte
    · rw [Memory.write, if_pos hb, hb, Memory.read_nil, ite_self]
    · rw [Memory.write, if_neg hb, Memory.read_cons]
  | cons p m ih =>
    obtain ⟨k, d⟩ := p
    obtain ⟨hlt, hm⟩ := List.pairwise_cons.1 h
    have below : ∀ x, x ≤ k → Memory.read m x = unlistedByte := fun x hx =>
      Memory.read_of_lt fun q hq => Nat.lt_of_le_of_lt hx (hlt q hq)
    rcases Nat.lt_trichotomy a k with hak | hak | hak
    · by_cases hb : b = unlistedByte
      · rw [Memory.write, if_pos hak, if_pos hb]
        by_cases hc : c = a
        · rw [if_pos hc, Memory.read_cons, if_neg (by omega), below c (by omega), hb]
        · rw [if_neg hc]
      · rw [Memory.write, if_pos hak, if_neg hb, Memory.read_cons]
    · subst hak
      by_cases hb : b = unlistedByte
      · rw [Memory.write, if_neg (Nat.lt_irrefl a), if_pos rfl, if_pos hb]
        by_cases hc : c = a
        · rw [if_pos hc, hc, below a (Nat.le_refl a), hb]
        · rw [if_neg hc, Memory.read_cons, if_neg hc]
      · rw [Memory.write, if_neg (Nat.lt_irrefl a), if_pos rfl, if_neg hb, Memory.read_cons, Memory.read_cons]
        by_cases hc : c = a <;> simp [hc]
    · rw [Memory.write, if_neg (by omega), if_neg (by omega), Memory.read_cons, ih hm, Memory.read_cons]
      by_cases hc : c = k
      · rw [if_pos hc, if_pos hc, if_neg (by omega)]
      · rw [if_neg hc, if_neg hc]

/-- Every entry of a written memory is the written one or was there before. -/
theorem Memory.mem_write {m : Memory} {a : Nat} {b : Byte} {p : Host.Cell} (h : p ∈ Memory.write m a b) :
    (p = (a, b) ∧ b ≠ unlistedByte) ∨ p ∈ m := by
  induction m with
  | nil =>
    by_cases hb : b = unlistedByte
    · rw [Memory.write, if_pos hb] at h
      exact .inr h
    · rw [Memory.write, if_neg hb] at h
      exact .inl ⟨List.mem_singleton.1 h, hb⟩
  | cons q m ih =>
    obtain ⟨k, d⟩ := q
    simp only [Memory.write] at h
    split at h
    · split at h
      · exact .inr h
      · next hb => exact (List.mem_cons.1 h).imp (fun e => ⟨e, hb⟩) id
    · split at h
      · split at h
        · exact .inr (List.mem_cons_of_mem _ h)
        · next hb =>
          exact (List.mem_cons.1 h).imp (fun e => ⟨e, hb⟩) (List.mem_cons_of_mem _)
      · rcases List.mem_cons.1 h with h | h
        · exact .inr (h ▸ List.mem_cons_self)
        · exact (ih h).imp id (List.mem_cons_of_mem _)

/-- A write at an address of `FB` keeps the canonical form. -/
theorem Memory.write_wf {m : Memory} (h : Memory.wf m) {a : Nat} (ha : a < 34) (b : Byte) :
    Memory.wf (Memory.write m a b) := by
  refine ⟨?_, fun p hp => ?_⟩
  · obtain ⟨hs, -⟩ := h
    induction m with
    | nil =>
      rw [Memory.write]
      split
      · exact List.Pairwise.nil
      · exact List.pairwise_singleton _ _
    | cons q m ih =>
      obtain ⟨k, d⟩ := q
      obtain ⟨hlt, hm⟩ := List.pairwise_cons.1 hs
      simp only [Memory.write]
      split
      · next hak =>
        split
        · exact hs
        · refine List.pairwise_cons.2 ⟨fun q hq => ?_, hs⟩
          rcases List.mem_cons.1 hq with rfl | hq
          · exact hak
          · exact Nat.lt_trans hak (hlt q hq)
      · split
        · next hak =>
          subst hak
          split
          · exact hm
          · exact List.pairwise_cons.2 ⟨hlt, hm⟩
        · next hnlt hne =>
          refine List.pairwise_cons.2 ⟨fun q hq => ?_, ih hm⟩
          rcases Memory.mem_write hq with ⟨rfl, -⟩ | hq
          · show k < a
            omega
          · exact hlt q hq
  · rcases Memory.mem_write hp with ⟨rfl, hb⟩ | hp
    · exact ⟨ha, hb⟩
    · exact h.2 p hp

theorem byteOf_zero (b : Byte) : byteOf b.toNat 0 = b := by
  simp [byteOf]

/-- The one-byte `MemWrite` is one write (R34). -/
@[simp] theorem memWrite_one (m : Memory) (a : Nat) (b : Byte) :
    memWrite m a 1 b.toNat = Memory.write m a b := by
  simp [memWrite, byteOf_zero]

/-- `MemWrite` inside `FB` keeps the canonical form (R7). -/
theorem memWrite_wf {m : Memory} (h : Memory.wf m) (addr n v : Nat) (hb : addr + n ≤ 34) :
    Memory.wf (memWrite m addr n v) := by
  induction n with
  | zero => exact h
  | succ n ih => exact Memory.write_wf (ih (by omega)) (by omega) _

theorem Memory.wf_nil : Memory.wf [] := ⟨List.Pairwise.nil, fun _ h => absurd h List.not_mem_nil⟩

/-- A buffer built from at most 34 bytes is in canonical form. -/
theorem Memory.ofBytes_wf (bs : List Byte) (h : bs.length ≤ 34) : Memory.wf (Memory.ofBytes bs) := by
  have key : ∀ (l : List Nat) (m : Memory), (∀ a ∈ l, a < 34) → Memory.wf m →
      Memory.wf (l.foldl (fun m a => Memory.write m a (bs.getD a 0)) m) := by
    intro l
    induction l with
    | nil => exact fun m _ hm => hm
    | cons a l ih =>
      exact fun m hl hm => ih _ (fun c hc => hl c (by simp [hc])) (Memory.write_wf hm (hl a (by simp)) _)
  exact key _ _ (fun a ha => Nat.lt_of_lt_of_le (List.mem_range.1 ha) h) Memory.wf_nil

/-- Reading after writing a list of addresses, each with its byte. -/
theorem Memory.read_foldl_write (f : Nat → Byte) (l : List Nat) {m : Memory} (hm : Memory.wf m)
    (hl : ∀ a ∈ l, a < 34) (c : Nat) :
    Memory.read (l.foldl (fun m a => Memory.write m a (f a)) m) c = if c ∈ l then f c else Memory.read m c := by
  induction l generalizing m with
  | nil => simp
  | cons a l ih =>
    rw [List.foldl_cons, ih (Memory.write_wf hm (hl a (by simp)) _) fun b hb => hl b (by simp [hb]),
      Memory.read_write hm.1]
    by_cases h : c ∈ l
    · simp [h]
    · by_cases h2 : c = a <;> simp [h, h2]

/-- A buffer built from bytes reads them back, and 0 above them. -/
theorem Memory.read_ofBytes {bs : List Byte} (h : bs.length ≤ 34) (a : Nat) :
    Memory.read (Memory.ofBytes bs) a = bs.getD a 0 := by
  rw [Memory.ofBytes, Memory.read_foldl_write _ _ Memory.wf_nil fun a ha => by have := List.mem_range.1 ha; omega]
  by_cases ha : a < bs.length <;> simp [ha]

end Sys2Proof.Machine
end

