-- ==== Sys2Proof/Laws/Fields.lean ====
section
/-! SUPPORT. The arithmetic of fields: little-endian sums (R31), extraction (R91) and sign extension (R123),
and what one row's generic extraction answers. -/
namespace Sys2Proof.Machine

/-- A little-endian sum of n bytes is below 2^(8n). -/
theorem leSum_lt (f : Nat → Byte) (n : Nat) : leSum f n < 2 ^ (8 * n) := by
  induction n with
  | zero => simp [leSum]
  | succ n ih =>
    have hb := (f n).isLt
    have hp : (2 : Nat) ^ (8 * (n + 1)) = 2 ^ (8 * n) * 256 := by rw [Nat.mul_succ, Nat.pow_add]
    have : (f n).toNat * 2 ^ (8 * n) ≤ 255 * 2 ^ (8 * n) := Nat.mul_le_mul_right _ (by omega)
    simp only [leSum]
    omega

/-- A little-endian sum splits at any byte (R31). -/
theorem leSum_add (f : Nat → Byte) (a n : Nat) :
    leSum f (a + n) = leSum f a + 2 ^ (8 * a) * leSum (fun j => f (a + j)) n := by
  induction n with
  | zero => simp [leSum]
  | succ n ih =>
    rw [← Nat.add_assoc, leSum, ih, leSum, Nat.mul_add 8, Nat.pow_add]
    ring

/-- Only the bytes below n enter a sum of n bytes. -/
theorem leSum_congr {f g : Nat → Byte} {n : Nat} (h : ∀ j < n, f j = g j) : leSum f n = leSum g n := by
  induction n with
  | zero => rfl
  | succ n ih => rw [leSum, leSum, ih fun j hj => h j (by omega), h n (by omega)]

/-- The bytes above `a` of a sum are the sum shifted down (R90). -/
theorem leSum_div (f : Nat → Byte) (a n : Nat) :
    leSum f (a + n) / 2 ^ (8 * a) = leSum (fun j => f (a + j)) n := by
  rw [leSum_add, Nat.add_mul_div_left _ _ (Nat.two_pow_pos _), Nat.div_eq_of_lt (leSum_lt f a), Nat.zero_add]

/-- The n bytes from `a` on of a longer sum (R90). -/
theorem leSum_slice (f : Nat → Byte) (a n k : Nat) :
    leSum f (a + n + k) / 2 ^ (8 * a) % 2 ^ (8 * n) = leSum (fun j => f (a + j)) n := by
  rw [Nat.add_assoc, leSum_div, leSum_add, Nat.add_mul_mod_self_left, Nat.mod_eq_of_lt (leSum_lt _ n)]

/-- A field is below 2^w (R91 a). -/
theorem extractBits_lt (frame o w : Nat) : extractBits frame o w < 2 ^ w :=
  Nat.mod_lt _ (Nat.two_pow_pos w)

/-- A field that does not start on a byte, from the value of the bytes it touches (R90). -/
theorem extractBits_of_slice {frame a s w n : Nat} (h : s + w ≤ n) :
    extractBits frame (a + s) w = extractBits (frame / 2 ^ a % 2 ^ n) s w := by
  apply Nat.eq_of_testBit_eq
  intro i
  simp only [extractBits, Nat.testBit_mod_two_pow, Nat.testBit_div_two_pow]
  by_cases hi : i < w
  · simp only [hi, decide_true, Bool.true_and]
    rw [decide_eq_true (by omega : i + s < n), Bool.true_and]
    congr 1
    omega
  · simp [hi]

theorem two_pow_pred {n : Nat} (h : 1 ≤ n) : 2 ^ n = 2 * 2 ^ (n - 1) := by
  obtain ⟨k, rfl⟩ : ∃ k, n = k + 1 := ⟨n - 1, by omega⟩
  rw [Nat.pow_succ, Nat.add_sub_cancel]
  omega

/-- The range of sign extension (R123 a). -/
theorem sext_range {n v : Nat} (hn : 1 ≤ n) (hv : v < 2 ^ n) :
    -(2 ^ (n - 1) : Int) ≤ sext n v ∧ sext n v < (2 ^ (n - 1) : Int) := by
  have hp : ((2 : Int) ^ n) = 2 * 2 ^ (n - 1) := by exact_mod_cast two_pow_pred hn
  have hv' : (v : Int) < 2 ^ n := by exact_mod_cast hv
  have h0 : (0 : Int) ≤ v := Int.natCast_nonneg v
  unfold sext
  split
  · next h =>
    have : (v : Int) < 2 ^ (n - 1) := by exact_mod_cast h
    omega
  · next h =>
    have : ((2 : Int) ^ (n - 1)) ≤ v := by exact_mod_cast Nat.le_of_not_lt h
    omega

/-- Sign extension loses nothing (R123 b). -/
theorem sext_emod {n v : Nat} (hv : v < 2 ^ n) : sext n v % 2 ^ n = v := by
  have hv' : (v : Int) < 2 ^ n := by exact_mod_cast hv
  unfold sext
  split
  · exact Int.emod_eq_of_lt (Int.natCast_nonneg v) hv'
  · rw [Int.sub_emod_right, Int.emod_eq_of_lt (Int.natCast_nonneg v) hv']

/-- A row's value, unsigned: a number below 2^w. -/
theorem fieldValue_unsigned {row : FieldRow} (h : row.signed = false) (frame : Nat) :
    fieldValue row frame = (extractBits frame row.offset row.width : Int) := by
  simp [fieldValue, h, zext]

/-- A row's value, signed: the sign extension of its bits. -/
theorem fieldValue_signed {row : FieldRow} (h : row.signed = true) (frame : Nat) :
    fieldValue row frame = sext row.width (extractBits frame row.offset row.width) := by
  simp [fieldValue, h]

/-- A signed row's value lies in the signed range of its width (R123 a). -/
theorem fieldValue_signed_range {row : FieldRow} (h : row.signed = true) (hw : 1 ≤ row.width) (frame : Nat) :
    -(2 ^ (row.width - 1) : Int) ≤ fieldValue row frame ∧ fieldValue row frame < (2 ^ (row.width - 1) : Int) := by
  rw [fieldValue_signed h]
  exact sext_range hw (extractBits_lt _ _ _)

/-- An unsigned row's value lies in the unsigned range of its width (R91 a). -/
theorem fieldValue_unsigned_range {row : FieldRow} (h : row.signed = false) (frame : Nat) :
    0 ≤ fieldValue row frame ∧ fieldValue row frame < (2 ^ row.width : Int) := by
  rw [fieldValue_unsigned h]
  exact ⟨Int.natCast_nonneg _, by exact_mod_cast extractBits_lt _ _ _⟩

/-- A row's value lies between the least and the greatest of its field (R91 a, R123 a). -/
theorem fieldValue_range {row : FieldRow} (hw : 1 ≤ row.width) (frame : Nat) :
    row.minValue ≤ fieldValue row frame ∧ fieldValue row frame ≤ row.maxValue := by
  cases hs : row.signed
  · have := fieldValue_unsigned_range hs frame
    simp only [FieldRow.minValue, FieldRow.maxValue, hs, Bool.false_eq_true, if_false]
    omega
  · have := fieldValue_signed_range hs hw frame
    simp only [FieldRow.minValue, FieldRow.maxValue, hs, if_true]
    omega

/-- Every row of `LAYOUT_V7` answers within its register's raw range (R13, R57). -/
theorem fieldValue_inRawRange (r : Reg) (frame : Nat) :
    rawMin r ≤ fieldValue (rowOf r) frame ∧ fieldValue (rowOf r) frame ≤ rawMax r := by
  rw [rawMin, rawMax, config_row]
  exact fieldValue_range (by cases r <;> decide) frame

/-! ### Loads and bytes -/

/-- A load inside `FB` is the little-endian sum of its bytes (R7). -/
theorem memRead_eq (m : Memory) {a n : Nat} (h : a + n ≤ 34) :
    memRead m a n = some (leSum (fun j => Memory.read m (a + j)) n) := by
  rw [memRead, if_pos (by simpa using h)]

/-- The n bytes of the frame from byte a on (R31, R90). -/
theorem frame_slice (m : Memory) {a n : Nat} (h : a + n ≤ 34) :
    frameOf m / 2 ^ (8 * a) % 2 ^ (8 * n) = leSum (fun j => Memory.read m (a + j)) n := by
  obtain ⟨k, hk⟩ : ∃ k, 34 = a + n + k := ⟨34 - a - n, by omega⟩
  rw [frameOf, show frameLen = a + n + k from hk, leSum_slice]

/-- A field from the bytes it touches (R90). -/
theorem extract_of_bytes (m : Memory) {a n s w : Nat} (h : a + n ≤ 34) (hs : s + w ≤ 8 * n) :
    extractBits (frameOf m) (8 * a + s) w = leSum (fun j => Memory.read m (a + j)) n / 2 ^ s % 2 ^ w := by
  rw [extractBits_of_slice hs, frame_slice m h]
  rfl

/-- A byte of a little-endian sum (R31). -/
theorem byteOf_leSum (f : Nat → Byte) {n j : Nat} (h : j < n) : byteOf (leSum f n) j = f j := by
  obtain ⟨k, rfl⟩ : ∃ k, n = j + 1 + k := ⟨n - j - 1, by omega⟩
  have := leSum_slice f j 1 k
  apply BitVec.eq_of_toNat_eq
  rw [byteOf, BitVec.toNat_ofNat, this]
  simp [leSum]

/-- The little-endian sum of a number's low n bytes (R31). -/
theorem leSum_byteOf (F n : Nat) : leSum (byteOf F) n = F % 2 ^ (8 * n) := by
  induction n with
  | zero => simp [leSum, Nat.mod_one]
  | succ n ih =>
    rw [leSum, ih, byteOf, BitVec.toNat_ofNat, Nat.mul_succ, Nat.pow_add, Nat.mod_mul, Nat.mul_comm (2 ^ (8 * n))]

theorem bytesOf_getD {n : Nat} (F : Nat) {j : Nat} (h : j < n) : (bytesOf n F).getD j 0 = byteOf F j := by
  rw [bytesOf, List.getD_eq_getElem?_getD, List.getElem?_map, List.getElem?_range h]
  rfl

@[simp] theorem bytesOf_length (n F : Nat) : (bytesOf n F).length = n := by simp [bytesOf]

/-- A bit of a field is a bit of the frame (R90). -/
theorem extractBits_testBit (F o w i : Nat) :
    (extractBits F o w).testBit i = (decide (i < w) && F.testBit (i + o)) := by
  rw [extractBits, Nat.testBit_mod_two_pow, Nat.testBit_div_two_pow]

/-- The bits of a sign-extended register (R123 c). -/
theorem sext_getLsbD {n v m k : Nat} (hn : 1 ≤ n) (hv : v < 2 ^ n) (hk : k < m) :
    (BitVec.ofInt m (sext n v)).getLsbD k = if k < n then v.testBit k else v.testBit (n - 1) := by
  have hs : sext n v = (BitVec.ofNat n v).toInt := by
    rw [BitVec.toInt_eq_toNat_cond, BitVec.toNat_ofNat, Nat.mod_eq_of_lt hv, sext]
    have := two_pow_pred hn
    push_cast
    by_cases h : v < 2 ^ (n - 1)
    · rw [if_pos h, if_pos (by omega)]
    · rw [if_neg h, if_neg (by omega)]
  rw [hs, show BitVec.ofInt m (BitVec.ofNat n v).toInt = (BitVec.ofNat n v).signExtend m from rfl,
    BitVec.getLsbD_signExtend, decide_eq_true hk, Bool.true_and]
  split
  · next h => rw [BitVec.getLsbD_ofNat, decide_eq_true h, Bool.true_and]
  · rw [BitVec.msb_eq_getLsbD_last, BitVec.getLsbD_ofNat, decide_eq_true (by omega : n - 1 < n), Bool.true_and]

end Sys2Proof.Machine
end

