-- ==== Sys2Proof/Laws/Record.lean ====
section
/-! SUPPORT. Records and register files: what a register holds after an unpacking, as an integer (R5, R13). -/
namespace Sys2Proof.Machine

theorem toNat_ofInt_of_range {w : Nat} {v : Int} (h0 : 0 ≤ v) (h1 : v < 2 ^ w) :
    ((BitVec.ofInt w v).toNat : Int) = v := by
  rw [BitVec.toNat_ofInt, Int.toNat_of_nonneg (Int.emod_nonneg _ (by positivity))]
  exact Int.emod_eq_of_lt h0 (by exact_mod_cast h1)

theorem toInt_ofInt_of_range {w : Nat} (hw : 1 ≤ w) {v : Int} (h0 : -(2 ^ (w - 1) : Int) ≤ v)
    (h1 : v < 2 ^ (w - 1)) : (BitVec.ofInt w v).toInt = v := by
  have hp : (2 : Nat) ^ w = 2 * 2 ^ (w - 1) := two_pow_pred hw
  rw [BitVec.toInt_ofInt]
  have h2 : ((2 ^ (w - 1) : Nat) : Int) = 2 ^ (w - 1) := by push_cast; rfl
  apply Int.bmod_eq_of_le <;> omega

/-- What UNPACK puts in a register, in any well-formed configuration: its row's value of the frame (R51, R75). -/
theorem unpackWith_value {C : Configuration} (h : C.wf = true) (F : Nat) (r : Reg) :
    (unpackWith C F).value r = fieldValue (C.row r) F := by
  obtain ⟨hL, hm, -, hrw, hs⟩ := Configuration.row_of_wf h r
  obtain ⟨h1, -, h2⟩ := Layout.row_of_wf hL hm
  rw [hrw] at h2
  have unsigned : ∀ {w : Nat}, regSigned r = false → regWidth r = w →
      ((BitVec.ofInt w (fieldValue (C.row r) F)).toNat : Int) = fieldValue (C.row r) F := by
    intro w hr hw
    have hv := fieldValue_unsigned_range (hs.trans hr) F
    exact toNat_ofInt_of_range hv.1 (lt_of_lt_of_le hv.2 (pow_le_pow_right₀ (by decide) (hw ▸ h2)))
  have signed : ∀ {w : Nat}, regSigned r = true → regWidth r = w →
      (BitVec.ofInt w (fieldValue (C.row r) F)).toInt = fieldValue (C.row r) F := by
    intro w hr hw
    have hv := fieldValue_signed_range (hs.trans hr) h1 F
    have hle : ((2 : Int) ^ ((C.row r).width - 1)) ≤ 2 ^ (w - 1) := pow_le_pow_right₀ (by decide) (by omega)
    exact toInt_ofInt_of_range (by omega) (by omega) (by omega)
  cases r
  case time | pres | flags => exact unsigned rfl rfl
  all_goals exact signed rfl rfl

/-- What UNPACK puts in a register is its row's value of the frame (R75, R77). -/
theorem unpackFrame_value (F : Nat) (r : Reg) : (unpackFrame F).value r = fieldValue (rowOf r) F := by
  rw [unpackFrame, unpackWith_value config_wf, config_row]

/-- A register file that holds a record shows the record's values (R75). -/
theorem RegFile.ofRecord_value (c : Record) (r : Reg) : (RegFile.ofRecord c).value r = some (c.value r) := by
  have back : ∀ {w : Nat} (b : BitVec w), (BitVec.ofNat w b.toNat).toInt = b.toInt := fun b => by
    rw [BitVec.ofNat_toNat, BitVec.setWidth_eq]
  cases r
  case time | pres | flags => rfl
  all_goals exact congrArg some (back _)

/-- A register file without values shows none (R21). -/
theorem RegFile.noValue_bits (r : Reg) : RegFile.noValue.bits r = none := by cases r <;> rfl

theorem RegFile.ofRecord_bits_isSome (c : Record) (r : Reg) : ((RegFile.ofRecord c).bits r).isSome := by
  cases r <;> rfl

theorem RegFile.ofRecord_injective {c d : Record} (h : RegFile.ofRecord c = RegFile.ofRecord d) : c = d := by
  cases c; cases d; simpa [RegFile.ofRecord] using h

/-- Running the fifteen rows of `LAYOUT_V7` over any register file leaves the whole record of R75. -/
theorem extract_all_rows (x : RegFile) (F : Nat) :
    layoutV7.foldl (fun y row => y.write row.reg (fieldValue row F)) x = RegFile.ofRecord (unpackFrame F) := rfl

/-- A register's bit pattern fits the register (R13). -/
theorem RegFile.bits_lt {x : RegFile} {r : Reg} {n : Nat} (h : x.bits r = some n) : n < 2 ^ regWidth r := by
  cases r <;> (obtain ⟨b, -, rfl⟩ := Option.map_eq_some_iff.1 h; exact b.isLt)

/-- Writes of different registers commute (R14, R36). -/
theorem RegFile.write_comm (x : RegFile) {r q : Reg} (h : r ≠ q) (v u : Int) :
    (x.write r v).write q u = (x.write q u).write r v := by
  cases r <;> cases q <;> first | exact absurd rfl h | rfl

end Sys2Proof.Machine
end

