-- ==== Sys2Proof/Laws/Ops.lean ====
section
/-! SUPPORT. What each shared operation does, once: storing a byte, accepting a byte, the two completions, a
host's reading. The meanings' proofs cite these. -/
namespace Sys2Proof.Machine
namespace State

variable (s : State)

/-- A store writes one byte of `FB` and nothing else (R34). -/
theorem storeByte_eq (a : Nat) (b : Byte) : s.storeByte a b = s.withFb (Memory.write s.fb a b) := by
  rw [storeByte, memWrite_one]

@[simp] theorem storeByte_fb (a : Nat) (b : Byte) : (s.storeByte a b).fb = Memory.write s.fb a b := by
  rw [storeByte_eq, withFb_fb]
@[simp] theorem storeByte_cnt (a : Nat) (b : Byte) : (s.storeByte a b).cnt = s.cnt := rfl
@[simp] theorem storeByte_x (a : Nat) (b : Byte) : (s.storeByte a b).x = s.x := rfl
@[simp] theorem storeByte_outValid (a : Nat) (b : Byte) : (s.storeByte a b).outValid = s.outValid := rfl
@[simp] theorem storeByte_errLen (a : Nat) (b : Byte) : (s.storeByte a b).errLen = s.errLen := rfl
@[simp] theorem storeByte_pending (a : Nat) (b : Byte) : (s.storeByte a b).pending = s.pending := rfl
@[simp] theorem storeByte_events (a : Nat) (b : Byte) : (s.storeByte a b).events = s.events := rfl
@[simp] theorem storeByte_samples (a : Nat) (b : Byte) : (s.storeByte a b).samples = s.samples := rfl

/-- Below the saturating value the counter counts (R12). -/
theorem cntSucc_val {c : Fin 36} (h : c.val ≤ 34) : (cntSucc c).val = c.val + 1 := by
  rw [cntSucc, dif_pos (show c.val < cntOvf.val from (by omega : c.val < 35))]

/-- PUSH below 34 accepted bytes: the byte is stored at address `CNT`, the counter counts (R73). -/
theorem acceptByte_of_le {s : State} (h : s.cnt.val ≤ 33) (b : Byte) :
    s.acceptByte b = (s.withFb (Memory.write s.fb s.cnt.val b)).withCnt (cntSucc s.cnt) := by
  rw [acceptByte, if_pos (show s.cnt.val < frameLen from (by omega : s.cnt.val < 34)), storeByte_eq]

/-- PUSH at 34 or more: the byte is discarded, the counter saturates (R73). -/
theorem acceptByte_of_gt {s : State} (h : 33 < s.cnt.val) (b : Byte) : s.acceptByte b = s.withCnt cntOvf := by
  rw [acceptByte, if_neg (show ¬s.cnt.val < frameLen from (by omega : ¬s.cnt.val < 34))]

/-- PUSH changes only `FB` and `CNT` (R73). -/
theorem acceptByte_frame (b : Byte) :
    (s.acceptByte b).x = s.x ∧ (s.acceptByte b).outValid = s.outValid ∧ (s.acceptByte b).errLen = s.errLen ∧
      (s.acceptByte b).pending = s.pending ∧ (s.acceptByte b).events = s.events ∧
      (s.acceptByte b).samples = s.samples := by
  rw [acceptByte]
  split <;> simp

/-- What COMMIT_OK changes: the record, the flags and the event sequence (R75). -/
theorem commitOk_eq :
    s.commitOk =
      { s with x := RegFile.ofRecord (unpackFrame (frameOf s.fb)), outValid := true, errLen := false,
               events := s.events ++ [.ok (unpackFrame (frameOf s.fb))] } := rfl

/-- What COMMIT_ERR changes: the record, the flags and the event sequence (R76). -/
theorem raiseInvalidLength_eq :
    s.raiseInvalidLength =
      { s with x := RegFile.noValue, outValid := false, errLen := true,
               events := s.events ++ [.err .invalidLength] } := rfl

/-- An extraction writes one register (R90). -/
theorem extractField_eq (row : FieldRow) :
    s.extractField row = s.withRegs (s.x.write row.reg (fieldValue row (frameOf s.fb))) := rfl

/-- A host read either notes a sample and changes nothing else, or is the fault of R21. -/
theorem samplePort_cases (p : OutPort) :
    (∃ n, s.readPort p = .ok n ∧ s.samplePort p = .next (s.noteSample ⟨p, n⟩)) ∨
      (s.readPort p = .error (.recordHasNoValue p) ∧ s.samplePort p = .fault (.recordHasNoValue p)) := by
  rcases h : s.readPortWith config p with e | n
  · right
    have he : e = .recordHasNoValue p := by
      cases p <;> simp only [readPortWith] at h
      · cases h
      · cases h
      · split at h
        · split at h <;> cases h; rfl
        · cases h; rfl
      · split at h
        · split at h <;> cases h; rfl
        · cases h; rfl
    subst he
    exact ⟨h, by rw [samplePort, samplePortWith, h]⟩
  · exact .inl ⟨n, h, by rw [samplePort, samplePortWith, h]⟩

/-- A read of a status flag always answers (R19, R22). -/
theorem samplePort_outValid : s.samplePort .outValid = .next (s.noteSample ⟨.outValid, s.outValid.toNat⟩) := rfl
theorem samplePort_errLen : s.samplePort .errLen = .next (s.noteSample ⟨.errLen, s.errLen.toNat⟩) := rfl

/-- A flag view of a valid record answers the condition's bit (R94 to R101). -/
theorem samplePort_flag {s : State} (hv : s.outValid = true) {b : BitVec 8} (hb : s.x.flags = some b) (f : Flag) :
    s.samplePort (.flag f) = .next (s.noteSample ⟨.flag f, (flagView f b).toNat⟩) := by
  simp [samplePort, samplePortWith, readPortWith, flagView, hv, hb]

end State
end Sys2Proof.Machine
end

