-- ==== Sys2Proof/Laws/Step.lean ====
section
/-! SUPPORT. What one step can do, once: the four interface operations by equation, the dispatch of views, and
the inversion of `step`. -/
namespace Sys2Proof.Machine

variable (s : State)

/-- A port word selects one of the four interface operations (R58). -/
theorem decodePort_cases (w : PortWord) :
    decodePort w = .rst ∨ decodePort w = .idle ∨ decodePort w = .push (w.setWidth 8) ∨
      decodePort w = .pushl (w.setWidth 8) := by
  unfold decodePort
  split <;> [exact .inl rfl; skip]
  split <;> [skip; exact .inr (.inl rfl)]
  split <;> [exact .inr (.inr (.inr rfl)); exact .inr (.inr (.inl rfl))]

theorem exec_rst : exec .rst s = .next ((s.withCnt 0).flagsCleared.withRegs RegFile.noValue) := rfl
theorem exec_idle : exec .idle s = .next s := rfl
theorem exec_push (b : Byte) : exec (.push b) s = .next (s.acceptByte b) := rfl

/-- PUSHL that ends a presentation of length 34 (R74). -/
theorem exec_pushl_ok {s : State} (h : s.cnt.val = 33) (b : Byte) :
    exec (.pushl b) s = .next (((s.storeByte 33 b).commitOk).withCnt 0) := by
  rw [exec, execPushl, execPushlWith, if_pos (show s.cnt.val + 1 = frameLen from (by omega : s.cnt.val + 1 = 34)), h]
  rfl

/-- PUSHL that ends a presentation of another length (R74). -/
theorem exec_pushl_err {s : State} (h : s.cnt.val ≠ 33) (b : Byte) :
    exec (.pushl b) s =
      .next (((if s.cnt.val ≤ 32 then s.storeByte s.cnt.val b else s).raiseInvalidLength).withCnt 0) := by
  rw [exec, execPushl, execPushlWith, if_neg (show ¬s.cnt.val + 1 = frameLen from (by omega : ¬s.cnt.val + 1 = 34))]
  by_cases hc : s.cnt.val ≤ 32
  · rw [if_pos (show s.cnt.val + 1 < frameLen from (by omega : s.cnt.val + 1 < 34)), if_pos hc]
  · rw [if_neg (show ¬s.cnt.val + 1 < frameLen from (by omega : ¬s.cnt.val + 1 < 34)), if_neg hc]

/-- A flag view's operation is the host's reading of its port (R94 to R101). -/
theorem exec_viewOp (f : Flag) : exec (viewOp f) s = s.samplePort (.flag f) := by cases f <;> rfl

/-- A host read is a reading of the port, whichever it is. -/
theorem perform_read (p : OutPort) : perform (.read p) s = s.samplePort p := by
  cases p with
  | flag f => exact exec_viewOp s f
  | reg r => rfl
  | outValid => rfl
  | errLen => rfl

theorem perform_present (w : PortWord) : perform (.present w) s = exec (decodePort w) s := rfl

/-- With nothing pending, nothing happens (R70). -/
theorem step_nothing {s : State} (h : s.pending = []) : step s = .next s := by
  rw [step, State.nextAction, h]

/-- A step makes the next pending action in the state without it. -/
theorem step_action {s : State} {a : HostAction} {rest : List HostAction} (h : s.pending = a :: rest) :
    step s = perform a (s.withPending rest) := by
  rw [step, State.nextAction, h]

/-- Everything a step that goes on can have done. -/
theorem step_cases {s t : State} (h : step s = .next t) :
    (s.pending = [] ∧ t = s) ∨
    (∃ w rest, s.pending = .present w :: rest ∧ exec (decodePort w) (s.withPending rest) = .next t) ∨
    (∃ p rest n, s.pending = .read p :: rest ∧ (s.withPending rest).readPort p = .ok n ∧
      t = (s.withPending rest).noteSample ⟨p, n⟩) := by
  rcases hp : s.pending with _ | ⟨a, rest⟩
  · rw [step_nothing hp] at h
    exact .inl ⟨rfl, by cases h; rfl⟩
  · rw [step_action hp] at h
    cases a with
    | present w => exact .inr (.inl ⟨w, rest, rfl, h⟩)
    | read p =>
      rw [perform_read] at h
      rcases (s.withPending rest).samplePort_cases p with ⟨n, hn, he⟩ | ⟨-, he⟩
      · rw [he] at h
        exact .inr (.inr ⟨p, rest, n, rfl, hn, by cases h; rfl⟩)
      · rw [he] at h
        cases h

/-- Everything an interface operation can have done, PUSHL's two completions apart. -/
theorem exec_port_cases {s t : State} {w : PortWord} (h : exec (decodePort w) s = .next t) :
    (decodePort w = .rst ∧ t = (s.withCnt 0).flagsCleared.withRegs RegFile.noValue) ∨
    (decodePort w = .idle ∧ t = s) ∨
    (∃ b, decodePort w = .push b ∧ t = s.acceptByte b) ∨
    (∃ b, decodePort w = .pushl b ∧ s.cnt.val = 33 ∧ t = ((s.storeByte 33 b).commitOk).withCnt 0) ∨
    (∃ b, decodePort w = .pushl b ∧ s.cnt.val ≠ 33 ∧
      t = ((if s.cnt.val ≤ 32 then s.storeByte s.cnt.val b else s).raiseInvalidLength).withCnt 0) := by
  rcases decodePort_cases w with hd | hd | hd | hd <;> rw [hd] at h ⊢
  · rw [exec_rst] at h
    exact .inl ⟨rfl, by cases h; rfl⟩
  · rw [exec_idle] at h
    exact .inr (.inl ⟨rfl, by cases h; rfl⟩)
  · rw [exec_push] at h
    exact .inr (.inr (.inl ⟨_, rfl, by cases h; rfl⟩))
  · by_cases hc : s.cnt.val = 33
    · rw [exec_pushl_ok hc] at h
      exact .inr (.inr (.inr (.inl ⟨_, rfl, hc, by cases h; rfl⟩)))
    · rw [exec_pushl_err hc] at h
      exact .inr (.inr (.inr (.inr ⟨_, rfl, hc, by cases h; rfl⟩)))

/-- One more step of a run of any machine. -/
theorem run_step (M : Host.Core) (k : Nat) (s : M.State) :
    Host.Core.run M (k + 1) s = match M.step s with
      | .next t => Host.Core.run M k t
      | .fault r => .fault r
      | .refused r => .refused r := rfl

/-- A run whose first step goes on. -/
theorem run_of_next {s t : State} (h : step s = .next t) (k : Nat) :
    Host.Core.run Sys2Proof.core (k + 1) s = Host.Core.run Sys2Proof.core k t := by
  have hr := run_step Sys2Proof.core k s
  rw [show Sys2Proof.core.step s = Host.Outcome.next t from h] at hr
  exact hr

/-- A run whose first step is a fault. -/
theorem run_of_fault {s : State} {e : Fault} (h : step s = .fault e) (k : Nat) :
    Host.Core.run Sys2Proof.core (k + 1) s = .fault e := by
  have hr := run_step Sys2Proof.core k s
  rw [show Sys2Proof.core.step s = Host.Outcome.fault e from h] at hr
  exact hr

/-! ### The extraction operations -/

/-- The row of `LAYOUT_V7` an extraction operation interprets (R51). -/
def extractRow : Instr → Option FieldRow
  | .xTime => some rowTime | .xTemp => some rowTemp | .xPres => some rowPres
  | .xMagX => some rowMagX | .xMagY => some rowMagY | .xMagZ => some rowMagZ
  | .xAccX => some rowAccX | .xAccY => some rowAccY | .xAccZ => some rowAccZ
  | .xGyrX => some rowGyrX | .xGyrY => some rowGyrY | .xGyrZ => some rowGyrZ
  | .xLat => some rowLat | .xLon => some rowLon | .xFlags => some rowFlags
  | .rst | .idle | .push _ | .pushl _
  | .xFlagArmed | .xFlagGpsFix | .xFlagAltitudeHold | .xFlagBatteryLow | .xFlagSensorError
  | .xFlagRecoveryMode | .xFlagDataLogging | .xFlagTelemetryActive => none

/-- An extraction operation writes its row's register and goes on (R90). -/
theorem exec_extract {i : Instr} {row : FieldRow} (h : extractRow i = some row) (s : State) :
    exec i s = .next (s.extractField row) := by
  cases i <;> cases h <;> rfl

/-- Extractions run one after another are a fold over their rows, all reading one `FB` (R36). -/
theorem runOps_extract {ops : List Instr} {rows : List FieldRow} (h : ops.map extractRow = rows.map some) (s : State) :
    runOps ops s =
      .next (s.withRegs (rows.foldl (fun y row => y.write row.reg (fieldValue row (frameOf s.fb))) s.x)) := by
  induction ops generalizing rows s with
  | nil => cases rows <;> simp at h; rfl
  | cons i ops ih =>
    cases rows with
    | nil => simp at h
    | cons row rows =>
      simp only [List.map_cons, List.cons.injEq] at h
      rw [runOps, exec_extract h.1]
      dsimp only
      rw [ih h.2]
      rfl

end Sys2Proof.Machine
end

