-- ==== Sys2Proof/Laws/Configured.lean ====
section
/-! SUPPORT. The block in a configuration (R4, R213): this hardware is the block at `config`; what a step, a
completion and a view do in any configuration. -/
namespace Sys2Proof.Machine

/-- This hardware's operations are the block's at `config`. -/
theorem exec_eq_execWith (i : Instr) (s : State) : exec i s = execWith config i s := by cases i <;> rfl

theorem perform_eq_performWith (a : HostAction) (s : State) : perform a s = performWith config a s := by
  cases a with
  | present w => exact exec_eq_execWith _ s
  | read p =>
    cases p with
    | flag f => exact exec_eq_execWith _ s
    | reg r => rfl
    | outValid => rfl
    | errLen => rfl

variable (C : Configuration)

/-- A step in a configuration makes the next pending action in the state without it. -/
theorem stepWith_action {s : State} {a : HostAction} {rest : List HostAction} (h : s.pending = a :: rest) :
    stepWith C s = performWith C a (s.withPending rest) := by
  rw [stepWith, State.nextAction, h]

/-- A flag view's operation is the host's reading of its port, in any configuration (R94 to R101). -/
theorem execWith_viewOp (f : Flag) (s : State) : execWith C (viewOp f) s = s.samplePortWith C (.flag f) := by
  cases f <;> rfl

/-- A PUSHL that ends a presentation of length 34, in a configuration (R74, R75). -/
theorem execWith_pushl_ok {s : State} (h : s.cnt.val = 33) (b : Byte) :
    execWith C (.pushl b) s = .next (((s.storeByte 33 b).commitOkWith C).withCnt 0) := by
  rw [execWith, execPushlWith, if_pos (show s.cnt.val + 1 = frameLen from (by omega : s.cnt.val + 1 = 34)), h]

/-- A flag view of a valid record, in a configuration, answers its bit of x[14] (R55). -/
theorem samplePortWith_flag {s : State} (hv : s.outValid = true) {b : BitVec 8} (hb : s.x.flags = some b) (f : Flag) :
    s.samplePortWith C (.flag f) = .next (s.noteSample ⟨.flag f, (b.getLsbD (C.flagBit f)).toNat⟩) := by
  simp [State.samplePortWith, State.readPortWith, flagViewWith, hv, hb]

end Sys2Proof.Machine
end

