-- ==== Sys2Proof/Laws/PerInstr.lean ====
section
/-! SUPPORT. The statements made for every operation, one lemma per constructor of Instr. EncodingLength: an
operation of format PORT is encoded in the two bytes of a port word, one of the formats FRAME34 and FLAGBIT in
the 34 bytes of a frame (R50, R58, R62). -/
namespace Sys2Proof.Laws.EncodingLength

/-- The number of bytes of an operation's encoding, from its format. -/
def Statement (i : Sys2Proof.Instr) : Prop :=
  (Sys2Proof.encode i).length = match i.format with
    | .port => 2
    | .frame34 => 34
    | .flagbit => 34

theorem rst : Statement .rst := rfl
theorem idle : Statement .idle := rfl
theorem push (data : Sys2Proof.Byte) : Statement (.push data) := rfl
theorem pushl (data : Sys2Proof.Byte) : Statement (.pushl data) := rfl
theorem xTime : Statement .xTime := rfl
theorem xTemp : Statement .xTemp := rfl
theorem xPres : Statement .xPres := rfl
theorem xMagX : Statement .xMagX := rfl
theorem xMagY : Statement .xMagY := rfl
theorem xMagZ : Statement .xMagZ := rfl
theorem xAccX : Statement .xAccX := rfl
theorem xAccY : Statement .xAccY := rfl
theorem xAccZ : Statement .xAccZ := rfl
theorem xGyrX : Statement .xGyrX := rfl
theorem xGyrY : Statement .xGyrY := rfl
theorem xGyrZ : Statement .xGyrZ := rfl
theorem xLat : Statement .xLat := rfl
theorem xLon : Statement .xLon := rfl
theorem xFlags : Statement .xFlags := rfl
theorem xFlagArmed : Statement .xFlagArmed := rfl
theorem xFlagGpsFix : Statement .xFlagGpsFix := rfl
theorem xFlagAltitudeHold : Statement .xFlagAltitudeHold := rfl
theorem xFlagBatteryLow : Statement .xFlagBatteryLow := rfl
theorem xFlagSensorError : Statement .xFlagSensorError := rfl
theorem xFlagRecoveryMode : Statement .xFlagRecoveryMode := rfl
theorem xFlagDataLogging : Statement .xFlagDataLogging := rfl
theorem xFlagTelemetryActive : Statement .xFlagTelemetryActive := rfl

end Sys2Proof.Laws.EncodingLength
end

