-- ==== Sys2Proof/Laws/Run.lean ====
section
/-! SUPPORT. Runs of port words as a fold (R70, R78): every port word goes on to a next state, which does not
depend on what is still pending. -/
namespace Sys2Proof.Machine

/-- The state after one port word. -/
def afterWord (s : State) (w : PortWord) : State :=
  match decodePort w with
  | .rst => (s.withCnt 0).flagsCleared.withRegs RegFile.noValue
  | .push b => s.acceptByte b
  | .pushl b =>
    if s.cnt.val = 33 then ((s.storeByte 33 b).commitOk).withCnt 0
    else ((if s.cnt.val ≤ 32 then s.storeByte s.cnt.val b else s).raiseInvalidLength).withCnt 0
  | _ => s

/-- Every port word goes on (R70). -/
theorem exec_word (s : State) (w : PortWord) : exec (decodePort w) s = .next (afterWord s w) := by
  rcases decodePort_cases w with h | h | h | h <;> rw [afterWord, h]
  · rfl
  · rfl
  · rfl
  · by_cases hc : s.cnt.val = 33
    · rw [exec_pushl_ok hc]
      dsimp only
      rw [if_pos hc]
    · rw [exec_pushl_err hc]
      dsimp only
      rw [if_neg hc]

/-- What is pending does not enter the effect of a port word. -/
theorem afterWord_withPending (s : State) (p : List HostAction) (w : PortWord) :
    afterWord (s.withPending p) w = (afterWord s w).withPending p := by
  unfold afterWord
  rcases decodePort_cases w with h | h | h | h <;> rw [h] <;> dsimp only
  · rfl
  · by_cases hc : s.cnt.val ≤ 33
    · rw [State.acceptByte_of_le (s := s.withPending p) hc, State.acceptByte_of_le hc]
      rfl
    · rw [State.acceptByte_of_gt (s := s.withPending p) (Nat.lt_of_not_le hc), State.acceptByte_of_gt (by omega)]
      rfl
  · by_cases hc : s.cnt.val = 33
    · rw [if_pos (show (s.withPending p).cnt.val = 33 from hc), if_pos hc]
      rfl
    · rw [if_neg (show ¬(s.withPending p).cnt.val = 33 from hc), if_neg hc]
      by_cases hd : s.cnt.val ≤ 32
      · rw [if_pos (show (s.withPending p).cnt.val ≤ 32 from hd), if_pos hd]
        rfl
      · rw [if_neg (show ¬(s.withPending p).cnt.val ≤ 32 from hd), if_neg hd]
        rfl

@[simp] theorem withPending_withPending (s : State) (p q : List HostAction) :
    (s.withPending p).withPending q = s.withPending q := rfl

/-- A run of port words is the fold of their effects, with nothing pending at its end (R70, R78). -/
theorem runWords_eq (ws : List PortWord) (s : State) :
    runWords ws s = .next ((ws.foldl afterWord s).withPending []) := by
  have key : ∀ (ws : List PortWord) (s : State),
      Host.Core.run Sys2Proof.core ws.length (s.withPending (ws.map HostAction.present)) =
        .next ((ws.foldl afterWord s).withPending []) := by
    intro ws
    induction ws with
    | nil => exact fun s => rfl
    | cons w ws ih =>
      intro s
      have h : step (s.withPending ((w :: ws).map HostAction.present)) =
          .next ((afterWord s w).withPending (ws.map HostAction.present)) := by
        rw [step_action (a := .present w) (rest := ws.map HostAction.present) rfl, perform_present,
          withPending_withPending, exec_word, afterWord_withPending]
      rw [List.length_cons, run_of_next h, ih, List.foldl_cons]
  rw [runWords, runActions, List.length_map]
  exact key ws s

/-- The notation PRESENT presents its bytes: its words are one presentation of them (R59, R78). -/
theorem presentWords_presents {bs : List Byte} (h : bs ≠ []) : Presents (presentWords bs) bs := by
  have hp : ∀ b, acceptedByte (0b010#3 ++ b) = some (b, false) := fun b => by rw [acceptedByte, decodePort_push]
  have hl : ∀ b, acceptedByte (0b011#3 ++ b) = some (b, true) := fun b => by rw [acceptedByte, decodePort_pushl]
  refine ⟨?_, h, ?_⟩
  · induction bs with
    | nil => exact absurd rfl h
    | cons b bs ih =>
      cases bs with
      | nil =>
        intro w hw
        obtain rfl := List.mem_singleton.1 hw
        rw [decodePort_pushl]
        simp
      | cons c bs =>
        intro w hw
        rcases List.mem_cons.1 hw with rfl | hw
        · rw [decodePort_push]
          simp
        · exact ih (by simp) w hw
  · induction bs with
    | nil => exact absurd rfl h
    | cons b bs ih =>
      cases bs with
      | nil => simp [presentWords, hl]
      | cons c bs =>
        rw [presentWords, List.filterMap_cons_some (hp b), ih (by simp)]
        simp

end Sys2Proof.Machine
end

