-- ==== Sys2Proof/Laws/Tables.lean ====
section
/-! SUPPORT. Field tables (R61): what well-formedness says of two rows, the bits of a mask and of a packed frame
(R150, R151), and a row's value from its table. -/
namespace Sys2Proof.Machine

/-- Numbers without a common bit: their sum is their bitwise or (R150). -/
theorem add_eq_or_of_disjoint {a b : Nat} (h : a &&& b = 0) : a + b = a ||| b := by
  induction a using Nat.binaryRec generalizing b with
  | zero => simp
  | bit x n ih =>
    obtain ⟨y, m, rfl⟩ : ∃ y m, b = Nat.bit y m := ⟨b.bodd, b.div2, (Nat.bit_bodd_div2 b).symm⟩
    rw [Nat.land_bit] at h
    have hn : n &&& m = 0 ∧ (x && y) = false := by
      have := Nat.bit_eq_zero_iff.1 h
      exact ⟨this.1, this.2⟩
    rw [Nat.lor_bit, ← ih hn.1]
    have h2 := hn.2
    clear hn h ih
    cases x <;> cases y <;>
      first
      | (cases h2; done)
      | (simp only [Nat.bit_val, Bool.or_false, Bool.or_true, Bool.toNat_true, Bool.toNat_false]; omega)

/-- A pattern fits its width (R5). -/
theorem pattern_lt (v : Int) (w : Nat) : pattern v w < 2 ^ w := by
  have hp : (0 : Int) < 2 ^ w := by positivity
  rw [pattern]
  zify
  rw [Int.toNat_of_nonneg (Int.emod_nonneg _ hp.ne')]
  exact Int.emod_lt_of_pos _ hp

/-- The pattern of a row's value is the row's bits (R123 b, R150). -/
theorem pattern_fieldValue (row : FieldRow) (F : Nat) :
    pattern (fieldValue row F) row.width = extractBits F row.offset row.width := by
  have hx := extractBits_lt F row.offset row.width
  cases hs : row.signed
  · rw [fieldValue_unsigned hs, pattern, Int.emod_eq_of_lt (by positivity) (by exact_mod_cast hx)]
    simp
  · rw [fieldValue_signed hs, pattern, sext_emod hx]
    simp

/-- A bit above a field's width is clear. -/
theorem testBit_above {x w k : Nat} (hx : x < 2 ^ w) (hk : w ≤ k) : x.testBit k = false :=
  Nat.testBit_lt_two_pow (lt_of_lt_of_le hx (Nat.pow_le_pow_right (by omega) hk))

/-- What `Layout.wf` says, as propositions (R61). -/
theorem layout_wf_rows {L : Layout} (hL : L.wf = true) :
    (∀ r ∈ L, 1 ≤ r.width ∧ r.offset + r.width ≤ 272) ∧
      L.Pairwise (fun r q => r.reg ≠ q.reg ∧ r.disjoint q = true) := by
  induction L with
  | nil => simp
  | cons r L ih =>
    simp only [Layout.wf, Bool.and_eq_true, List.all_eq_true] at hL
    obtain ⟨⟨hr, hd⟩, hL⟩ := hL
    obtain ⟨a, b⟩ := ih hL
    simp only [FieldRow.wf, Bool.and_eq_true, decide_eq_true_eq] at hr
    refine ⟨fun q hq => ?_, List.pairwise_cons.2 ⟨fun q hq => by simpa using hd q hq, b⟩⟩
    rcases List.mem_cons.1 hq with rfl | h
    exacts [⟨hr.1.1, hr.1.2⟩, a q h]

/-- Two rows of a well-formed table share neither a register nor a frame bit (R61). -/
theorem layout_wf_disjoint {L : Layout} (hL : L.wf = true) {r q : FieldRow} (hr : r ∈ L) (hq : q ∈ L) (h : r ≠ q) :
    r.reg ≠ q.reg ∧ (r.offset + r.width ≤ q.offset ∨ q.offset + q.width ≤ r.offset) := by
  have hp := (layout_wf_rows hL).2
  clear hL
  induction L with
  | nil => simp at hr
  | cons x L ih =>
    obtain ⟨h1, h2⟩ := List.pairwise_cons.1 hp
    rcases List.mem_cons.1 hr with hr | hr <;> rcases List.mem_cons.1 hq with hq | hq
    · exact absurd (hr.trans hq.symm) h
    · have := h1 q hq
      rw [← hr] at this
      simp [FieldRow.disjoint] at this
      exact ⟨this.1, this.2⟩
    · have := h1 r hr
      rw [← hq] at this
      simp [FieldRow.disjoint] at this
      exact ⟨fun h => this.1 h.symm, this.2.symm⟩
    · exact ih hr hq h2

/-- The bits of a row's mask (R62). -/
theorem frameMask_testBit (r : FieldRow) (k : Nat) :
    r.frameMask.testBit k = (decide (r.offset ≤ k) && decide (k < r.offset + r.width)) := by
  rw [FieldRow.frameMask, Nat.testBit_mul_two_pow, Nat.testBit_two_pow_sub_one]
  by_cases h : r.offset ≤ k <;> simp [h]
  omega

/-- The bits of a table's mask (R151). -/
theorem usedMask_testBit (L : Layout) (k : Nat) :
    L.usedMask.testBit k = L.any (fun r => decide (r.offset ≤ k) && decide (k < r.offset + r.width)) := by
  rw [Layout.usedMask]
  induction L with
  | nil => simp
  | cons r L ih => rw [List.map_cons, List.foldr_cons, Nat.testBit_or, ih, frameMask_testBit, List.any_cons]

/-- A table finds the row of a register it has (R61). -/
theorem valueWith_of_mem {L : Layout} (hL : L.wf = true) {row : FieldRow} (hr : row ∈ L) (F : Nat) :
    valueWith L F row.reg = some (fieldValue row F) := by
  obtain ⟨q, hq⟩ : ∃ q, L.find? (fun q => q.reg = row.reg) = some q := by
    rw [← Option.isSome_iff_exists, List.find?_isSome]
    exact ⟨row, hr, by simp⟩
  have hqr : q = row := by
    by_contra hne
    exact (layout_wf_disjoint hL (List.mem_of_find?_eq_some hq) hr hne).1 (by simpa using List.find?_some hq)
  rw [valueWith, hq, hqr]
  rfl

/-- Every register has its row in `LAYOUT_V7` (R51). -/
theorem rowOf_mem (r : Reg) : rowOf r ∈ layoutV7 := by cases r <;> simp [rowOf, layoutV7]
theorem rowOf_reg (r : Reg) : (rowOf r).reg = r := by cases r <;> rfl

end Sys2Proof.Machine
end

