-- ==== Sys2Proof/Tests/Slice0.lean ====
section
/-! SUPPORT. The model's own tests. Expected results are the spec's: the vectors of 95_test_vectors.md and the
examples that stand in the rules. -/
namespace Sys2Proof.Tests
open Sys2Proof.Machine

/-! ### Helpers -/

/-- The state a run of one step reaches, if it goes on. -/
def nextState (o : Host.Outcome State Fault Refusal) : Option State :=
  match o with
  | .next t => some t
  | .fault _ => none
  | .refused _ => none

/-- The fault a step stops with, if it does. -/
def faultOf (o : Host.Outcome State Fault Refusal) : Option Fault :=
  match o with
  | .next _ => none
  | .fault e => some e
  | .refused _ => none

/-- The reset state with the given bytes in `FB`, zeros above. -/
def withBytes (at0 : Nat) (bs : List Byte) : State :=
  State.reset.withFb (Memory.ofBytes (List.replicate at0 0 ++ bs))

/-- What a register holds after an operation on a frame that is all 00 but for the bytes from `at0` on. -/
def valueAfter (i : Instr) (r : Reg) (at0 : Nat) (bs : List Byte) : Option Int :=
  (nextState (exec i (withBytes at0 bs))).bind (fun t => t.x.value r)

/-- Vector V3 of 95_test_vectors.md part 2.4: a plausible flight sample. -/
def v3 : List Byte :=
  [0xE8, 0x03, 0x00, 0x2E, 0x49, 0xF3, 0x62, 0x64, 0x00, 0x38, 0xFF, 0x2C, 0x01, 0x00, 0x00, 0x00, 0x00] ++
  [0xE8, 0x03, 0x0F, 0x00, 0xF1, 0xFF, 0x00, 0x00, 0x40, 0x83, 0xE8, 0x1C, 0xEB, 0x32, 0xA4, 0x38, 0x83]

/-- The record of V3 (95_test_vectors.md part 2.4, register bit patterns). -/
def v3Record : Record where
  time := 0x000003E8
  temp := 0x092E
  pres := 0x00018BCD
  magX := 0x0064
  magY := 0xFF38
  magZ := 0x012C
  accX := 0x0000
  accY := 0x0000
  accZ := 0x03E8
  gyrX := 0x000F
  gyrY := 0xFFF1
  gyrZ := 0x0000
  lat := 0x1CE88340
  lon := 0xF8A432EB
  flags := 0x83

/-- Vector V4 (extremes, set A). -/
def v4 : List Byte :=
  [0xFF, 0xFF, 0xFF, 0x00, 0x20, 0x00, 0x00, 0x00, 0x80, 0xFF, 0x7F, 0xFF, 0xFF, 0x01, 0x00, 0xFE, 0xFF] ++
  [0x02, 0x00, 0x00, 0x80, 0xFF, 0x7F, 0xF6, 0xFF, 0x00, 0x00, 0x00, 0x20, 0xFF, 0xFF, 0xFF, 0x1F, 0x00]

/-- A state in which V3's record is valid and 33 bytes of V3 have been accepted again (vector I14). -/
def v3At33 : State :=
  { State.reset with
    fb := Memory.ofBytes v3.dropLast, cnt := 33, x := RegFile.ofRecord v3Record, outValid := true,
    events := [.ok v3Record] }

/-! ### WellFormed: one ill-formed term for each check, refused -/

theorem test_wf_layoutV7 : layoutV7.wf = true := by decide
/-- Width 0 (R61, `w >= 1`). -/
theorem test_wf_refuses_width_zero : FieldRow.wf ⟨.time, 0, 0, false, 32, none⟩ = false := by decide
/-- Past the frame's end (R61, `o + w <= 272`). -/
theorem test_wf_refuses_past_end : FieldRow.wf ⟨.flags, 265, 8, false, 8, none⟩ = false := by decide
/-- Wider than its register (R61, `ow >= w`). -/
theorem test_wf_refuses_wide_field : FieldRow.wf ⟨.temp, 24, 18, true, 16, none⟩ = false := by decide
/-- Two rows for one register (R61). -/
theorem test_wf_refuses_shared_register : Layout.wf [rowTime, ⟨.time, 24, 8, false, 32, none⟩] = false := by decide
/-- The source's literal pressure row, 20 bits at 38, overlaps magnetometer x (R61, C1). -/
theorem test_wf_refuses_source_pressure : Layout.wf [⟨.pres, 38, 20, false, 32, some 0⟩, rowMagX] = false := by decide
/-- The same table by its parameter, `PRES_WIDTH` 20 (R93, C1). -/
theorem test_wf_refuses_overlapping_pressure : Configuration.wf { config with presWidth := 20 } = false := by decide
/-- A table with room for a wide pressure field: longitude 9 bits, pressure at bit 241. -/
def roomyLayout : Layout := layoutV7.map (fun row =>
  if row.reg = .lon then { row with width := 9 } else if row.reg = .pres then { row with offset := 241 } else row)
/-- Wider than `PRES_DECLARED_WIDTH` = 20, and nothing else (R4). -/
theorem test_wf_refuses_undeclared_pressure :
    Configuration.wf { config with presWidth := 20, layout := roomyLayout } = true ∧
      Configuration.wf { config with presWidth := 21, layout := roomyLayout } = false := by decide
/-- A register without a row (R51). -/
theorem test_wf_refuses_missing_register : Configuration.wf { config with layout := layoutV7.tail } = false := by decide
/-- A register of another width than R13's. -/
theorem test_wf_refuses_other_register_width :
    Configuration.wf { config with layout := { rowTime with regWidth := 24 } :: layoutV7.tail } = false := by decide
/-- A register of another signedness than R13's. -/
theorem test_wf_refuses_other_signedness :
    Configuration.wf { config with layout := { rowTime with signed := true } :: layoutV7.tail } = false := by decide
theorem test_wf_refuses_short_flag_order : Configuration.wf { config with flagOrder := flagOrder.tail } = false := by decide
/-- Two bits for one condition, none for another (R55). -/
theorem test_wf_refuses_flag_without_bit :
    Configuration.wf { config with flagOrder := .gpsFix :: flagOrder.tail } = false := by decide
theorem test_wf_refuses_empty_present : (Line.present []).wf = false := by decide
theorem test_wf_refuses_short_frame : (Line.frame (List.replicate 33 0)).wf = false := by decide
theorem test_wf_refuses_twelfth_bit : isPortWordBytes 0x00 0x08 = false := by decide

/-! ### Decoding: words written out from R58 and the table of 95_test_vectors.md part 2.2 -/

theorem test_decode_rst : decodePort 0b10000000000 = .rst ∧ decodePort 0x7FF = .rst ∧ decodePort 0x4A5 = .rst := by decide
theorem test_decode_idle : decodePort 0b00000000000 = .idle ∧ decodePort 0x1FF = .idle := by decide
theorem test_decode_push : decodePort 0b01011101000 = .push 0xE8 ∧ decodePort 0x2FF = .push 0xFF := by decide
theorem test_decode_pushl : decodePort 0b01110000011 = .pushl 0x83 ∧ decodePort 0x300 = .pushl 0x00 := by decide
theorem test_decode_bytes_push : decodeFirst [0xE8, 0x02] = some (.push 0xE8) := by decide
theorem test_decode_refuses_bit_eleven : decode [0x00, 0x08] = .error .bitsAboveThePortWord := by decide
theorem test_decode_refuses_three_bytes : decode [0x00, 0x02, 0x00] = .error (.noFormatOfLength 3) := by decide
/-- Every frame selects every extraction and every view (R50, R57, R62). -/
theorem test_decode_frame : decode v3 = .ok (extractOps ++ viewOps) := by decide
theorem test_tableWord_rst : decodeTableWord 16 0x400 = some .rst := by decide
theorem test_tableWord_idle : decodeTableWord 16 0x000 = some .idle := by decide
theorem test_tableWord_push : decodeTableWord 16 0x200 = some (.push 0) := by decide
theorem test_tableWord_pushl : decodeTableWord 16 0x300 = some (.pushl 0) := by decide
theorem test_tableWord_frame : decodeTableWord 272 0 = some .xTime := by decide
/-- Port words of P1 (95_test_vectors.md part 3), the first and the last two. -/
theorem test_words_present : (Line.present [0xE8, 0x38, 0x83]).words = some [0x2E8, 0x238, 0x383] := by decide
theorem test_words_lines : Line.rst.words = some [0x400] ∧ (Line.idle 2).words = some [0x000, 0x000] := by decide

/-! ### Another configuration (R4, R213): pressure 10 bits wide, the flags numbered from the top -/

def otherConfig : Configuration := { config with presWidth := 10, flagOrder := flagOrder.reverse }

theorem test_otherConfig_wf : otherConfig.wf = true := by decide
/-- R93's example bytes 49 F3 62: 101325 = 0x18BCD in 18 bits, so 0x3CD = 973 in 10 bits. -/
theorem test_otherConfig_xPres :
    (nextState (execWith otherConfig .xPres (withBytes 4 [0x49, 0xF3, 0x62]))).bind (fun t => t.x.value .pres)
      = some 973 := by decide
/-- The flags byte 01 shows the condition of bit 0, which is the last of R55's list here. -/
theorem test_otherConfig_flags :
    otherConfig.flagBit .telemetryActive = 0 ∧ otherConfig.flagBit .armed = 7 ∧
      flagViewWith otherConfig .telemetryActive 0x01 = true ∧ flagViewWith otherConfig .armed 0x01 = false := by decide

/-! ### The interface operations (95_test_vectors.md part 2.2) -/

/-- I2: RST discards a valid record and a presentation in progress. -/
theorem test_rst : nextState (exec .rst { v3At33 with cnt := 17 }) =
    some { v3At33 with cnt := 0, outValid := false, x := RegFile.noValue } := by decide
/-- I5: IDLE changes nothing. -/
theorem test_idle : nextState (exec .idle { v3At33 with cnt := 5 }) = some { v3At33 with cnt := 5 } := by decide
/-- R73's example: `CNT` = 3, PUSH 2E. -/
theorem test_push : (nextState (exec (.push 0x2E) { State.reset with cnt := 3 })).map (fun t => (t.fb, t.cnt)) =
    some ([(3, 0x2E)], 4) := by decide
/-- I10 and I11: the 34th byte of a PUSH is stored, the 35th is not. -/
theorem test_push_full : (nextState (exec (.push 0x83) { State.reset with cnt := 33 })).map (fun t => (t.fb, t.cnt)) =
      some ([(33, 0x83)], 34) ∧
    (nextState (exec (.push 0xAA) { State.reset with cnt := 34 })).map (fun t => (t.fb, t.cnt)) = some ([], 35) := by
  decide
/-- I14: PUSHL 83 at `CNT` = 33 with V3's first 33 bytes. -/
theorem test_pushl_ok : (nextState (exec (.pushl 0x83) v3At33)).map
      (fun t => (t.x, t.outValid, t.errLen, t.cnt, t.events)) =
    some (RegFile.ofRecord v3Record, true, false, 0, [.ok v3Record, .ok v3Record]) := by decide
/-- I17: PUSHL 64 at `CNT` = 9 invalidates the record. -/
theorem test_pushl_err : (nextState (exec (.pushl 0x64) { v3At33 with cnt := 9 })).map
      (fun t => (t.x, t.outValid, t.errLen, t.cnt, t.events)) =
    some (RegFile.noValue, false, true, 0, [.ok v3Record, .err .invalidLength]) := by decide

/-! ### The extractions (95_test_vectors.md part 2.3 and the rules' examples) -/

theorem test_xTime : valueAfter .xTime .time 0 [0xE8, 0x03, 0x00] = some 1000 ∧
    valueAfter .xTime .time 0 [0x00, 0x00, 0x80] = some 8388608 := by decide
theorem test_xTemp : valueAfter .xTemp .temp 3 [0x00, 0x20] = some (-8192) ∧
    valueAfter .xTemp .temp 3 [0x2E, 0x49] = some 2350 := by decide
theorem test_xPres : valueAfter .xPres .pres 4 [0x49, 0xF3, 0x62] = some 101325 ∧
    valueAfter .xPres .pres 4 [0x3F, 0x00, 0x00] = some 0 := by decide
theorem test_xMagX : valueAfter .xMagX .magX 7 [0x00, 0x80] = some (-32768) ∧
    valueAfter .xMagX .magX 7 [0xFF, 0x00] = some 255 := by decide
theorem test_xMagY : valueAfter .xMagY .magY 9 [0x38, 0xFF] = some (-200) ∧
    valueAfter .xMagY .magY 9 [0xFF, 0x7F] = some 32767 := by decide
theorem test_xMagZ : valueAfter .xMagZ .magZ 11 [0x2C, 0x01] = some 300 ∧
    valueAfter .xMagZ .magZ 11 [0xFF, 0xFF] = some (-1) := by decide
theorem test_xAccX : valueAfter .xAccX .accX 13 [0x01, 0x00] = some 1 ∧
    valueAfter .xAccX .accX 13 [0x00, 0x80] = some (-32768) := by decide
theorem test_xAccY : valueAfter .xAccY .accY 15 [0xFE, 0xFF] = some (-2) ∧
    valueAfter .xAccY .accY 15 [0x00, 0x80] = some (-32768) := by decide
theorem test_xAccZ : valueAfter .xAccZ .accZ 17 [0xE8, 0x03] = some 1000 ∧
    valueAfter .xAccZ .accZ 17 [0x00, 0x80] = some (-32768) := by decide
theorem test_xGyrX : valueAfter .xGyrX .gyrX 19 [0x0F, 0x00] = some 15 ∧
    valueAfter .xGyrX .gyrX 19 [0x00, 0x80] = some (-32768) := by decide
theorem test_xGyrY : valueAfter .xGyrY .gyrY 21 [0xF1, 0xFF] = some (-15) ∧
    valueAfter .xGyrY .gyrY 21 [0xFF, 0x7F] = some 32767 := by decide
theorem test_xGyrZ : valueAfter .xGyrZ .gyrZ 23 [0xF6, 0xFF] = some (-10) ∧
    valueAfter .xGyrZ .gyrZ 23 [0x00, 0x80] = some (-32768) := by decide
theorem test_xLat : valueAfter .xLat .lat 25 [0x40, 0x83, 0xE8, 0xDC] = some 485000000 ∧
    valueAfter .xLat .lat 25 [0x00, 0x00, 0x00, 0x20] = some (-536870912) := by decide
theorem test_xLon : valueAfter .xLon .lon 29 [0xEB, 0x32, 0xA4, 0xF8] = some (-123456789) ∧
    valueAfter .xLon .lon 29 [0xFF, 0xFF, 0xFF, 0x1F] = some 536870911 := by decide
theorem test_xFlags : valueAfter .xFlags .flags 33 [0x83] = some 131 ∧
    valueAfter .xFlags .flags 33 [0xFF] = some 255 := by decide

/-! ### The flag views (95_test_vectors.md part 2.6) -/

/-- The state with a valid record whose flags byte is the given one. -/
def withFlagsByte (b : Byte) : State :=
  { State.reset with x := RegFile.ofRecord { v3Record with flags := b }, outValid := true }

/-- The reading a view takes of a flags byte. -/
def viewOf (i : Instr) (b : Byte) : Option (List Sample) :=
  (nextState (exec i (withFlagsByte b))).map (fun t => t.samples)

theorem test_xFlagArmed : viewOf .xFlagArmed 0x01 = some [⟨.flag .armed, 1⟩] ∧
    viewOf .xFlagArmed 0xFE = some [⟨.flag .armed, 0⟩] := by decide
theorem test_xFlagGpsFix : viewOf .xFlagGpsFix 0x02 = some [⟨.flag .gpsFix, 1⟩] ∧
    viewOf .xFlagGpsFix 0xFD = some [⟨.flag .gpsFix, 0⟩] := by decide
theorem test_xFlagAltitudeHold : viewOf .xFlagAltitudeHold 0x04 = some [⟨.flag .altitudeHold, 1⟩] ∧
    viewOf .xFlagAltitudeHold 0xFB = some [⟨.flag .altitudeHold, 0⟩] := by decide
theorem test_xFlagBatteryLow : viewOf .xFlagBatteryLow 0x08 = some [⟨.flag .batteryLow, 1⟩] ∧
    viewOf .xFlagBatteryLow 0xF7 = some [⟨.flag .batteryLow, 0⟩] := by decide
theorem test_xFlagSensorError : viewOf .xFlagSensorError 0x10 = some [⟨.flag .sensorError, 1⟩] ∧
    viewOf .xFlagSensorError 0xEF = some [⟨.flag .sensorError, 0⟩] := by decide
theorem test_xFlagRecoveryMode : viewOf .xFlagRecoveryMode 0x20 = some [⟨.flag .recoveryMode, 1⟩] ∧
    viewOf .xFlagRecoveryMode 0xDF = some [⟨.flag .recoveryMode, 0⟩] := by decide
theorem test_xFlagDataLogging : viewOf .xFlagDataLogging 0x40 = some [⟨.flag .dataLogging, 1⟩] ∧
    viewOf .xFlagDataLogging 0xBF = some [⟨.flag .dataLogging, 0⟩] := by decide
theorem test_xFlagTelemetryActive : viewOf .xFlagTelemetryActive 0x80 = some [⟨.flag .telemetryActive, 1⟩] ∧
    viewOf .xFlagTelemetryActive 0x7F = some [⟨.flag .telemetryActive, 0⟩] := by decide
/-- A view read while the record has no value is the host's fault (R208). -/
theorem test_view_without_record : faultOf (exec .xFlagArmed State.reset) = some (.recordHasNoValue (.flag .armed)) := by decide

/-! ### The memory, the step, the ports -/

theorem test_write_zero_unlists : Memory.write [(3, 0x2E), (5, 0x01)] 3 0x00 = [(5, 0x01)] := by decide
theorem test_write_sorted : Memory.write [(3, 0x2E), (5, 0x01)] 4 0x49 = [(3, 0x2E), (4, 0x49), (5, 0x01)] := by decide
/-- The coordinate word of V3: W(25) = 0x1CE88340 (95_test_vectors.md part 2.4). -/
theorem test_memRead_word : memRead (Memory.ofBytes v3) 25 4 = some 0x1CE88340 ∧ memRead (Memory.ofBytes v3) 31 4 = none := by decide
theorem test_memWrite_word : memWrite [] 3 2 0x492E = [(3, 0x2E), (4, 0x49)] := by decide
/-- A step runs the port word presented next: after reset, PUSH E8 (I7). -/
theorem test_step_push : (nextState (step (State.reset.withFetchWord 16 0x2E8))).map (fun t => (t.fb, t.cnt)) =
    some ([(0, 0xE8)], 1) := by decide
/-- A frame placed by withFetchWord completes OK in the very next step. -/
theorem test_step_frame : (nextState (step (State.reset.withFetchWord 272 (frameOfBytes v3)))).map
      (fun t => (t.x, t.outValid, t.cnt)) = some (RegFile.ofRecord v3Record, true, 0) := by decide
/-- `out_stb` during a PUSHL and during a PUSH (R79). -/
theorem test_outStb : (State.reset.withFetchWord 16 0x300).outStb = true ∧
    (State.reset.withFetchWord 16 0x200).outStb = false := by decide
/-- P1's end state at the ports: `lon_e7` = 0xF8A432EB, `f_gps_fix` = 1, `f_battery_low` = 0. -/
theorem test_ports : v3At33.readPort (.reg .lon) = .ok 0xF8A432EB ∧ v3At33.readPort (.flag .gpsFix) = .ok 1 ∧
    v3At33.readPort (.flag .batteryLow) = .ok 0 ∧ v3At33.readPort .outValid = .ok 1 := by decide
theorem test_reg_widths : params.regWidths = allRegs.map regWidth ∧ params.layout.map FieldRow.regWidth = allRegs.map regWidth := by decide

/-! ### UNPACK, DECODE, PACK (95_test_vectors.md parts 2.1, 2.4, 2.7) -/

theorem test_unpack_v3 : unpack v3 = v3Record := by decide
theorem test_unpack_v4 : allRegs.map (unpack v4).value =
    [16777215, -8192, 0, -32768, 32767, -1, 1, -2, 2, -32768, 32767, -10, -536870912, 536870911, 0] := by decide
theorem test_decode_length : decodeBytes (v3 ++ [0xAA]) = .err .invalidLength ∧ decodeBytes [] = .err .invalidLength := by decide
theorem test_pack_v4 : pack (unpack v4).value = some v4 := by decide
/-- Outside PACK's domain (part 2.7). -/
theorem test_pack_refuses : pack (fun r => if r = .pres then 262144 else 0) = none ∧
    pack (fun r => if r = .temp then -8193 else 0) = none := by decide
theorem test_usedMask : layoutV7.usedMask = usedMask := by decide

/-! ### Scaling (95_test_vectors.md part 2.5) -/

theorem test_denoted_temp : denoted .temp 2350 = some (47 / 2) := by
  norm_num [denoted, rowOf, rowTemp]
theorem test_f64_temp : f64 .division .temp 2350 = some 0x4037800000000000 ∧
    f64 .division .temp (-8192) = some 0xC0547AE147AE147B ∧ f64 .division .temp 1 = some 0x3F847AE147AE147B := by decide
theorem test_f64_gyro : f64 .division .gyrX (-32768) = some 0xC0A999999999999A ∧
    f64 .division .gyrX 32767 = some 0x40A9996666666666 := by decide
theorem test_f64_lat : f64 .division .lat 536870911 = some 0x404AD7F299E5EFB4 ∧
    f64 .division .lon (-123456789) = some 0xC028B0FCD324D5A2 ∧ f64 .division .lat 0 = some 0 := by decide
/-- R138: raw 536870911 by multiplication is 53.687091099999996, one unit in the last place below the division. -/
theorem test_f64_multiplication : f64 .multiplication .lat 536870911 = some 0x404AD7F299E5EFB3 := by decide

/-! ### The speed of a record (R167) -/

/-- "first record of a stream: 0": the parameter's default, whichever latitude enters the cosine (U8). -/
theorem test_speed_of_first_record (c : CosineLatitude) (f : Fix) (v : ℝ) :
    IsSpeedMps { cosineLatitude := c } none f v ↔ v = 0 := by simp [IsSpeedMps]
/-- The cosine's latitude is one of the two records' (R167, U11). -/
theorem test_cosine_latitude :
    CosineLatitude.degrees .current ⟨0, 0, 0⟩ ⟨485000000, 0, 1⟩ = 97 / 2 ∧
      CosineLatitude.degrees .previous ⟨0, 0, 0⟩ ⟨485000000, 0, 1⟩ = 0 := by norm_num [CosineLatitude.degrees]

/-! ### Witnesses: a concrete state and operands that meet all hypotheses of each statement together

One theorem for each statement that has hypotheses, named after it; one conjunct for each clause, at a boundary value
of its range where there is one. -/

/-- The state of v3At33 with the given actions pending. -/
def v3At33With (acts : List HostAction) : State := v3At33.withPending acts

/-- V3's record lies in its raw ranges (95_test_vectors.md part 2.4). -/
theorem wit_v3Record_inRange : v3Record.inRange := by
  intro r
  cases r <;> decide

/-- The state with V3's record meets the invariant, whatever is pending. -/
theorem wit_v3_inv : (v3At33With [.present 0x383, .read (.flag .armed)]).Inv :=
  ⟨by decide, by decide, fun _ => ⟨v3Record, rfl, wit_v3Record_inRange, rfl⟩, fun h => absurd h (by decide),
    fun h => absurd h (by decide)⟩

theorem wit_StepKeepsInv :
    (v3At33With [.present 0x383, .read (.flag .armed)]).Inv ∧
      (nextState (step (v3At33With [.present 0x383, .read (.flag .armed)]))).isSome = true :=
  ⟨wit_v3_inv, by decide⟩
theorem wit_StepRunsTheNextAction :
    (v3At33With [.present 0x7FF]).pending = .present 0x7FF :: [] ∧
    (v3At33With [.read (.flag .armed)]).pending = .read (.flag .armed) :: [] ∧
    (v3At33With [.read (.reg .lon)]).pending = .read (.reg .lon) :: [] ∧ State.reset.pending = [] := by decide
theorem wit_PlacedWordIsRunByTheNextStep : v3.length = 34 := by decide
theorem wit_EveryPortWordIsEnabled : (v3At33With [.present 0x7FF]).pending = .present 0x7FF :: [] := by decide
theorem wit_OnlyReadsWithoutRecordStop :
    faultOf (step (State.reset.presentNext (.read (.reg .time)))) = some (.recordHasNoValue (.reg .time)) ∧
    (State.reset.presentNext (.read (.reg .time))).Inv :=
  ⟨by decide, by decide, by decide, fun h => absurd h (by decide), fun _ => rfl, fun h => absurd h (by decide)⟩
theorem wit_EveryPortWordSelectsOneRow :
    (0x400 : PortWord).getLsbD 10 = true ∧
    ((0x1FF : PortWord).getLsbD 10 = false ∧ (0x1FF : PortWord).getLsbD 9 = false) ∧
    ((0x2FF : PortWord).getLsbD 10 = false ∧ (0x2FF : PortWord).getLsbD 9 = true ∧
      (0x2FF : PortWord).getLsbD 8 = false) ∧
    ((0x300 : PortWord).getLsbD 10 = false ∧ (0x300 : PortWord).getLsbD 9 = true ∧
      (0x300 : PortWord).getLsbD 8 = true) := by decide
theorem wit_EncodeThenDecodeGivesTheOperation :
    (Instr.pushl 0xFF).format = .port ∧
    ((0x3FF : PortWord).getLsbD 10 = false ∧ (0x3FF : PortWord).getLsbD 9 = true) ∧ v3.length = 34 := by decide
theorem wit_RstEffect : (0x400 : PortWord).getLsbD 10 = true ∧ (0x7FF : PortWord).getLsbD 10 = true := by decide
theorem wit_IdleEffect : (0x1FF : PortWord).getLsbD 10 = false ∧ (0x1FF : PortWord).getLsbD 9 = false := by decide
theorem wit_PushEffect :
    ((0x200 : PortWord).getLsbD 10 = false ∧ (0x200 : PortWord).getLsbD 9 = true ∧
      (0x200 : PortWord).getLsbD 8 = false) ∧
    (Memory.wf v3At33.fb ∧ v3At33.cnt.val ≤ 33) ∧
    (Memory.wf ({ v3At33 with cnt := 34 } : State).fb ∧ 34 ≤ ({ v3At33 with cnt := 34 } : State).cnt.val) := by decide
theorem wit_PushlStoresAndCompletes :
    ((0x3FF : PortWord).getLsbD 10 = false ∧ (0x3FF : PortWord).getLsbD 9 = true ∧
      (0x3FF : PortWord).getLsbD 8 = true) ∧
    (Memory.wf v3At33.fb ∧ v3At33.cnt.val ≤ 33 ∧ v3At33.cnt.val = 33) ∧
    (Memory.wf ({ v3At33 with cnt := 32 } : State).fb ∧ ({ v3At33 with cnt := 32 } : State).cnt.val ≤ 33 ∧
      ({ v3At33 with cnt := 32 } : State).cnt.val ≠ 33) ∧
    (Memory.wf ({ v3At33 with cnt := 34 } : State).fb ∧ 34 ≤ ({ v3At33 with cnt := 34 } : State).cnt.val ∧
      ({ v3At33 with cnt := 34 } : State).cnt.val ≠ 33) := by decide
theorem wit_OkCompletionWritesTheRecord : v3At33.cnt.val = 33 := by decide
theorem wit_ErrorCompletionEffect :
    ({ v3At33 with cnt := 32 } : State).cnt.val ≠ 33 ∧ ({ v3At33 with cnt := 34 } : State).cnt.val ≠ 33 := by decide
theorem wit_OkCompletionRunsTheExtractions : v3At33.cnt.val = 33 ∧ extractOps.reverse.Perm extractOps := by decide
theorem wit_InvalidLengthExactlyOnWrongLength :
    ((v3At33With [.present 0x383]).pending = .present 0x383 :: [] ∧
      (nextState (step (v3At33With [.present 0x383]))).isSome = true) ∧
    ((State.reset.withPending [.present 0x383]).pending = .present 0x383 :: [] ∧
      (nextState (step (State.reset.withPending [.present 0x383]))).map (fun t => t.events) =
        some [.err .invalidLength]) := by decide
theorem wit_RstBeatsAByteOfTheSameStep :
    (0x755 : PortWord).getLsbD 10 = true ∧ (v3At33With [.present 0x755]).pending = .present 0x755 :: [] := by decide
theorem wit_OneEventPerStrobe :
    ((nextState (step (v3At33With [.present 0x383]))).isSome = true ∧ (v3At33With [.present 0x383]).outStb = true) ∧
    ((nextState (step (v3At33With [.present 0x283]))).isSome = true ∧
      (v3At33With [.present 0x283]).outStb = false) := by decide
theorem wit_OnlyRstAndCompletionsWriteTheRecord :
    (nextState (step (v3At33With [.present 0x400]))).map
      (fun t => decide (t.x ≠ v3At33.x ∨ t.outValid ≠ v3At33.outValid ∨ t.errLen ≠ v3At33.errLen)) = some true := by
  decide
theorem wit_StoresGoToTheCounterOnly :
    Memory.wf v3At33.fb ∧ (nextState (step (v3At33With [.present 0x283]))).map
      (fun t => decide (Memory.read t.fb 33 ≠ Memory.read v3At33.fb 33)) = some true := by decide
theorem wit_ReadsChangeNothingOfTheBlock : (nextState (v3At33.samplePort (.reg .lon))).isSome = true := by decide
theorem wit_RecordIsReadableExactlyWhenValid :
    State.reset.outValid = false ∧ (v3At33With [.present 0x383, .read (.flag .armed)]).Inv ∧
      (v3At33With [.present 0x383, .read (.flag .armed)]).outValid = true := ⟨rfl, wit_v3_inv, rfl⟩
theorem wit_CanonicalBuffersAreEqualData :
    Memory.wf [(3, 0x2E)] ∧ Memory.wf (Memory.write [] 3 0x2E) ∧
      ∀ a, Memory.read [(3, 0x2E)] a = Memory.read (Memory.write [] 3 0x2E) a := ⟨by decide, by decide, fun _ => rfl⟩
theorem wit_FrameIsLittleEndian : 271 < 272 ∧ 0 < 272 := by decide
theorem wit_ExtractEqualsItsBytewiseForm : (1 ≤ 1 ∧ 271 + 1 ≤ 272) ∧ (1 ≤ 272 ∧ 0 + 272 ≤ 272) := by decide
theorem wit_ExtractDependsOnItsBitsOnly :
    ∀ k, 1 ≤ k → k < 1 + 2 → (0 : Nat).testBit k = (0b1001 : Nat).testBit k := by
  intro k h1 h2
  interval_cases k <;> decide
theorem wit_FieldsOfAWellFormedTableAreIndependent :
    layoutV7.wf = true ∧ (∀ row ∈ layoutV7, (fun r => if r = .time then 0x83 else 0 : Reg → Nat) row.reg < 2 ^ row.width) ∧
      0x83 < 2 ^ 272 ∧ 0x83 &&& layoutV7.usedMask = 0x83 ∧
        ∀ row ∈ layoutV7, extractBits 0x83 row.offset row.width =
          (fun r => if r = .time then 0x83 else 0 : Reg → Nat) row.reg :=
  ⟨by decide, by decide, by decide, by decide +kernel, by decide +kernel⟩
theorem wit_SignExtensionTestsTheFieldsTopBit :
    (1 ≤ 14 ∧ 8191 < 2 ^ 14 ∧ (8191 : Nat).testBit (14 - 1) = false) ∧
    (1 ≤ 14 ∧ 8192 < 2 ^ 14 ∧ (8192 : Nat).testBit (14 - 1) = true) ∧
    rowTemp ∈ layoutV7 ∧ rowTemp.signed = true := by decide
theorem wit_SignExtensionLaws :
    (1 ≤ 14 ∧ 16383 < 2 ^ 14) ∧ (-(2 ^ (14 - 1) : Int) ≤ -8192 ∧ (-8192 : Int) ≤ (2 ^ (14 - 1) : Int) - 1) ∧
      (0 < 2 ^ 14 ∧ sext 14 8192 = -8192 ∧ 8192 < 2 ^ 14) ∧ (14 ≤ 16 ∧ 15 < 16) ∧ 2 ≤ 14 := by decide
theorem wit_XTimeEffect : 24 ≤ 24 ∧ 24 ≤ 31 := by decide
theorem wit_XPresEffect : 18 ≤ 18 ∧ 18 ≤ 31 := by decide
theorem wit_SensorWordsEffect : (7, 56) ∈ [(7, 56), (9, 72), (11, 88), (13, 104), (15, 120), (17, 136), (19, 152), (21, 168), (23, 184)] := by
  decide
theorem wit_CoordinatesEffect : 25 ∈ [25, 29] ∧ 29 ∈ [25, 29] := by decide
theorem wit_FlagViewsEffect :
    (withFlagsByte 0x83).outValid = true ∧ (withFlagsByte 0x83).x.flags = some 0x83 ∧ 7 < 8 := by decide
theorem wit_UnusedBitsAreIgnored :
    ∀ k, k < 272 → k ≠ 230 → k ≠ 231 → k ≠ 262 → k ≠ 263 → (0 : Nat).testBit k = (2 ^ 230 : Nat).testBit k := by
  intro k _ h _ _ _
  rw [Nat.zero_testBit, Nat.testBit_two_pow_of_ne (by omega)]
theorem wit_EveryFrameDecodesInRange : v3.length = 34 ∧ ([] : List Byte).length ≠ 34 := by decide
theorem wit_PackOfUnpackIsTheUsedBits : v3.length = 34 := by decide
theorem wit_UnpackOfPackIsTheRecord :
    (∀ r : Reg, rawMin r ≤ v3Record.value r ∧ v3Record.value r ≤ rawMax r) ∧
      ∃ r : Reg, (fun _ => -1 : Reg → Int) r < rawMin r ∨ rawMax r < (fun _ => -1 : Reg → Int) r :=
  ⟨fun r => by cases r <;> decide, .time, .inl (by decide)⟩
theorem wit_RoundTripHoldsForEveryTable :
    layoutV7.wf = true ∧
    (∀ row ∈ layoutV7, if row.signed then -(2 ^ (row.width - 1) : Int) ≤ v3Record.value row.reg ∧
        v3Record.value row.reg < (2 ^ (row.width - 1) : Int)
      else 0 ≤ v3Record.value row.reg ∧ v3Record.value row.reg < (2 ^ row.width : Int)) ∧
    rowTemp ∈ layoutV7 := by decide
theorem wit_PresentationEmitsItsDecode :
    (Memory.wf State.reset.fb ∧ State.reset.cnt.val = 0 ∧ Presents [0x000, 0x2E8, 0x1FF, 0x303] [0xE8, 0x03] ∧
      [0xE8, 0x03].length ≠ 34) ∧
    (Presents (presentWords v3) v3 ∧ v3.length = 34) :=
  ⟨⟨by decide, rfl, ⟨by unfold noRst; decide, by decide, by decide⟩, by decide⟩,
    ⟨presentWords_presents (by decide), by decide⟩⟩
theorem wit_RunEmitsTheDecodeOfEachPresentation :
    Memory.wf v3At33.fb ∧ decodePort 0x7FF = .rst ∧
      ∀ p ∈ [(presentWords v3, v3), (presentWords [0xAA], [0xAA])], Presents p.1 p.2 := by
  refine ⟨by decide, by decide, fun p hp => ?_⟩
  rcases List.mem_cons.1 hp with rfl | hp
  · exact presentWords_presents (by decide)
  · obtain rfl := List.mem_singleton.1 hp
    exact presentWords_presents (by decide)
theorem wit_ResetForgetsEverythingBefore :
    Memory.wf State.reset.fb ∧ Memory.wf v3At33.fb ∧ decodePort 0x400 = .rst := by decide
theorem wit_FlagsReportTheLastCompletion : decodePort 0x400 = .rst ∧ noRst [0x303] :=
  ⟨by decide, by unfold noRst; decide⟩
theorem wit_BytesWithoutLastMarkOnlyCollect :
    Memory.wf State.reset.fb ∧ State.reset.cnt.val = 0 ∧ noRst (List.replicate 36 0x2E8) ∧
      noPushl (List.replicate 36 0x2E8) ∧
      33 < min ((List.replicate 36 (0x2E8 : PortWord)).filterMap acceptedByte).length 34 ∧
      ((List.replicate 36 (0x2E8 : PortWord)).filterMap acceptedByte).length ≤ 36 := by
  have e : acceptedByte 0x2E8 = some (0xE8, false) := by decide
  refine ⟨by decide, rfl, fun w hw => ?_, fun w hw => ?_, ?_, ?_⟩
  · rw [List.eq_of_mem_replicate hw]
    decide
  · rw [List.eq_of_mem_replicate hw]
    decide
  all_goals
    simp only [List.filterMap_replicate_of_some e, List.length_replicate]
    decide
theorem wit_PowerOnRunsBeginWithRst :
    beginsWithRst [] = false ∧ beginsWithRst [.present 0x2E8] = false ∧
      (decodePort 0x7FF = .rst ∧ beginsWithRst [.present 0x7FF, .present 0x383] = true) := by decide
theorem wit_DenotedValueDeterminesTheRawValue : (rowOf .lat).exp10 = some (-7) ∧ (rowOf .time).exp10 = some 0 := by decide
theorem wit_BinaryViewIsClose :
    (divisorOf .lat = some 10000000 ∧ rawMin .lat ≤ -536870912 ∧ -536870912 ≤ rawMax .lat) ∧
    (divisorOf .temp = some 100 ∧ rawMin .temp ≤ 0 ∧ 0 ≤ rawMax .temp) := by decide
theorem wit_AngleExistsExactlyOffTheOrigin : (1 : ℝ) ≠ 0 ∨ (0 : ℝ) ≠ 0 := .inl one_ne_zero
theorem wit_AltitudeAtItsLandmarks :
    101325 < (262143 : Int) ∧ IsAltitudeM 262143 (44330 * (1 - (((262143 : Int) : ℝ) / 101325) ^ (1 / 5.255 : ℝ))) :=
  ⟨by decide, rfl⟩
theorem wit_AttitudeFormulasOnTheExamples : (0 : Int) < 1 := by decide
theorem wit_AnotherConfigurationIsTheSameMachine :
    otherConfig.wf = true ∧ (v3At33With [.present 0x383]).cnt.val = 33 ∧
      (v3At33With [.present 0x383]).pending = .present 0x383 :: [] ∧ decodePort 0x383 = .pushl 0x83 := by decide

end Sys2Proof.Tests
end

section
/-! PROOFS. The statements of 00_scope.md: what a step runs (R8, R70), and the block in another configuration
(R4, R213, U5). -/
namespace Sys2Proof.Machine

/-- With nothing pending, nothing happens, in any configuration (R70). -/
theorem stepWith_nothing (C : Configuration) {s : State} (h : s.pending = []) : stepWith C s = .next s := by
  rw [stepWith, State.nextAction, h]

/-- The step of this hardware is the block's step at `config`. -/
theorem step_eq_stepWith (s : State) : step s = stepWith config s := by
  rcases hp : s.pending with _ | ⟨a, rest⟩
  · rw [step_nothing hp, stepWith_nothing config hp]
  · rw [step_action hp, stepWith_action config hp, perform_eq_performWith]

section
variable {C : Configuration}

/-- The step that presents the PUSHL of a presentation of length 34 is the OK completion (R74, R75). -/
theorem stepWith_pushl_ok {s : State} {w : PortWord} {b : Byte} {rest : List HostAction} (hc : s.cnt.val = 33)
    (hp : s.pending = .present w :: rest) (hd : decodePort w = .pushl b) :
    stepWith C s = .next ((((s.withPending rest).storeByte 33 b).commitOkWith C).withCnt 0) := by
  rw [stepWith_action C hp, performWith, hd, execWith_pushl_ok C (s := s.withPending rest) hc]

/-- What COMMIT_OK with any field table changes: the record, the flags and the event sequence (R75). -/
theorem commitOkWith_eq (s : State) :
    s.commitOkWith C =
      { s with x := RegFile.ofRecord (unpackWith C (frameOf s.fb)), outValid := true, errLen := false,
               events := s.events ++ [.ok (unpackWith C (frameOf s.fb))] } := rfl

/-- In a well-formed configuration COMMIT_OK leaves each register with the value of its row of the field table, the
pressure row at `PRES_WIDTH` (R51, R75, R93). -/
theorem commitOkWith_value (hC : C.wf = true) (s : State) (r : Reg) :
    ∃ row ∈ C.layout, row.reg = r ∧ (s.commitOkWith C).x.value r =
      some (fieldValue (if r = .pres then { row with width := C.presWidth } else row) (frameOf s.fb)) := by
  obtain ⟨row, hrow, hreg, he⟩ := Configuration.layout_row_of_wf hC r
  refine ⟨row, hrow, hreg, ?_⟩
  rw [commitOkWith_eq, RegFile.ofRecord_value, unpackWith_value hC, he]

/-- In a well-formed configuration the view of a condition, while the record is valid, is the bit of x[14] at which
the configuration numbers it (R55). -/
theorem execWith_viewOp_of_wf (hC : C.wf = true) {t : State} (hv : t.outValid = true) {c : BitVec 8}
    (hc : t.x.flags = some c) (f : Flag) :
    ∃ k : Nat, C.flagOrder[k]? = some f ∧ k < 8 ∧
      execWith C (viewOp f) t = .next (t.noteSample ⟨.flag f, (c.getLsbD k).toNat⟩) := by
  obtain ⟨hlt, hget⟩ := Configuration.flagBit_of_wf hC f
  exact ⟨C.flagBit f, hget, hlt, by rw [execWith_viewOp, samplePortWith_flag C hv hc]⟩

end

/-- Settles O60: this hardware is the block at `config` operation by operation, and in any well-formed configuration
the OK completion and the views read the configuration's own rows and bit numbers. -/
theorem anotherConfigurationIsTheSameMachine : Obligations.AnotherConfigurationIsTheSameMachine := by
  refine ⟨fun s => (step_eq_stepWith s).symm, fun i s => (exec_eq_execWith i s).symm, rfl, config_wf, ?_⟩
  intro C s w b rest hC hc hp hd
  refine ⟨_, stepWith_pushl_ok hc hp hd, rfl, rfl, fun r => ?_, fun f => ?_⟩
  · exact commitOkWith_value hC ((s.withPending rest).storeByte 33 b) r
  · obtain ⟨k, hget, hlt, hview⟩ := execWith_viewOp_of_wf hC
      (t := (((s.withPending rest).storeByte 33 b).commitOkWith C).withCnt 0) rfl rfl f
    exact ⟨k, _, hget, hlt, rfl, hview⟩

/-- Settles O4: `step` makes the next pending action, by the kinds of action. -/
theorem stepRunsTheNextAction : Obligations.StepRunsTheNextAction := by
  refine ⟨fun s w rest h => ?_, fun s f rest h => ?_, fun s p rest h => ?_, fun s h => step_nothing h⟩
  · rw [step_action h, perform_present]
  · rw [step_action h, perform_read, exec_viewOp]
  · rw [step_action h, perform_read]

end Sys2Proof.Machine
end

section
/-! PROOFS. The statements of 10_state.md: the reset, the invariant of the block and what its record and flags show
(R11 to R22). -/
namespace Sys2Proof.Machine

/-! ### The record and the flags, by the last event -/

/-- The record and the flags as the last event since the reset leaves them (R15, R16, R17, R71, R75, R76). -/
def State.Reports (t : State) : Option Event → Prop
  | none => t.outValid = false ∧ t.errLen = false ∧ t.x = RegFile.noValue
  | some (.ok c) => t.outValid = true ∧ t.errLen = false ∧ t.x = RegFile.ofRecord c
  | some (.err _) => t.outValid = false ∧ t.errLen = true ∧ t.x = RegFile.noValue

theorem State.sameVisible.refl (s : State) : s.sameVisible s := ⟨rfl, rfl, rfl, rfl⟩

theorem State.sameVisible.trans {s t u : State} (h : s.sameVisible t) (h' : t.sameVisible u) : s.sameVisible u := by
  obtain ⟨hvalid, herr, hx, hev⟩ := h
  obtain ⟨hvalid', herr', hx', hev'⟩ := h'
  exact ⟨hvalid.trans hvalid', herr.trans herr', hx.trans hx', hev.trans hev'⟩

/-- PUSH changes nothing visible (R73, R207). -/
theorem State.acceptByte_sameVisible (s : State) (b : Byte) : s.sameVisible (s.acceptByte b) := by
  obtain ⟨hx, hvalid, herr, -, hev, -⟩ := s.acceptByte_frame b
  exact ⟨hvalid.symm, herr.symm, hx.symm, hev.symm⟩

/-- The report rests on the visible state alone. -/
theorem State.Reports.of_sameVisible {s t : State} {e : Option Event} (h : s.Reports e) (hv : s.sameVisible t) :
    t.Reports e := by
  obtain ⟨hvalid, herr, hx, -⟩ := hv
  unfold State.Reports at h ⊢
  rwa [← hvalid, ← herr, ← hx]

/-- UNPACK answers a record in the raw ranges (R13, R57). -/
theorem unpackFrame_range (F : Nat) (r : Reg) :
    rawMin r ≤ (unpackFrame F).value r ∧ (unpackFrame F).value r ≤ rawMax r := by
  rw [unpackFrame_value]
  exact fieldValue_inRawRange r F

theorem unpackFrame_inRange (F : Nat) : (unpackFrame F).inRange := fun r => by
  simpa [inRawRange] using unpackFrame_range F r

/-- The store of a PUSHL, made or left out, changes at most `FB` (R74). -/
theorem ite_storeByte_eq (s : State) (c : Prop) [Decidable c] (a : Nat) (b : Byte) :
    (if c then s.storeByte a b else s) = s.withFb (if c then Memory.write s.fb a b else s.fb) := by
  split
  · exact State.storeByte_eq s a b
  · rfl

/-- What a port word can do to the visible state: RST clears it, a PUSHL emits one event and reports it, every
other word leaves it alone (R14 to R17). -/
theorem exec_port_visible {s t : State} {w : PortWord} (h : exec (decodePort w) s = .next t) :
    (decodePort w = .rst ∧ t.Reports none) ∨ s.sameVisible t ∨
    ((decodePort w).completes = true ∧ ∃ e : Event, t.events = s.events ++ [e] ∧ t.Reports (some e) ∧
      ∀ c, e = .ok c → c.inRange) := by
  rcases exec_port_cases h with ⟨hd, rfl⟩ | ⟨-, rfl⟩ | ⟨b, -, rfl⟩ | ⟨b, hd, -, rfl⟩ | ⟨b, hd, -, rfl⟩
  · exact .inl ⟨hd, rfl, rfl, rfl⟩
  · exact .inr (.inl (.refl _))
  · exact .inr (.inl (s.acceptByte_sameVisible b))
  · refine .inr (.inr ⟨by rw [hd]; rfl, _, rfl, ⟨rfl, rfl, rfl⟩, fun c hc => ?_⟩)
    cases hc
    exact unpackFrame_inRange _
  · rw [ite_storeByte_eq]
    exact .inr (.inr ⟨by rw [hd]; rfl, .err .invalidLength, rfl, ⟨rfl, rfl, rfl⟩, fun c hc => nomatch hc⟩)

/-! ### The invariant -/

/-- The canonical form outlives every port word: a store is at an address below 34 (R30, R34). -/
theorem exec_port_fb_wf {s t : State} {w : PortWord} (h : exec (decodePort w) s = .next t) (hfb : Memory.wf s.fb) :
    Memory.wf t.fb := by
  rcases exec_port_cases h with ⟨-, rfl⟩ | ⟨-, rfl⟩ | ⟨b, -, rfl⟩ | ⟨b, -, -, rfl⟩ | ⟨b, -, -, rfl⟩
  · exact hfb
  · exact hfb
  · by_cases hc : s.cnt.val ≤ 33
    · rw [State.acceptByte_of_le hc]
      exact Memory.write_wf hfb (by omega) b
    · rw [State.acceptByte_of_gt (by omega)]
      exact hfb
  · exact memWrite_wf hfb 33 1 b.toNat (by omega)
  · rw [ite_storeByte_eq]
    show Memory.wf (if s.cnt.val ≤ 32 then _ else _)
    split
    · exact Memory.write_wf hfb (by omega) b
    · exact hfb

/-- The invariant speaks of `FB` and the visible state alone. -/
theorem State.Inv.of_sameVisible {s t : State} (h : s.Inv) (hfb : Memory.wf t.fb) (hv : s.sameVisible t) : t.Inv := by
  obtain ⟨-, hexcl, hpres, habs, hseen⟩ := h
  obtain ⟨hvalid, herr, hx, hev⟩ := hv
  rw [hvalid, herr] at hexcl
  rw [hvalid, hx, hev] at hpres
  rw [hvalid, hx] at habs
  rw [herr, hev] at hseen
  exact ⟨hfb, hexcl, hpres, habs, hseen⟩

/-- A state that reports its last event, or reports none, meets the invariant. -/
theorem State.Inv.of_reports {t : State} {e : Option Event} (hfb : Memory.wf t.fb) (hr : t.Reports e)
    (hlast : ∀ v, e = some v → t.events.getLast? = some v) (hrange : ∀ c, e = some (.ok c) → c.inRange) : t.Inv := by
  match e, hr with
  | none, ⟨hvalid, herr, hx⟩ =>
    exact ⟨hfb, by simp [hvalid], by simp [hvalid], fun _ => hx, by simp [herr]⟩
  | some (.ok c), ⟨hvalid, herr, hx⟩ =>
    exact ⟨hfb, by simp [herr], fun _ => ⟨c, hx, hrange c rfl, hlast _ rfl⟩, by simp [hvalid], by simp [herr]⟩
  | some (.err .invalidLength), ⟨hvalid, herr, hx⟩ =>
    exact ⟨hfb, by simp [hvalid], by simp [hvalid], fun _ => hx, fun _ => hlast _ rfl⟩

/-- Every port word keeps the invariant. -/
theorem exec_port_inv {s t : State} {w : PortWord} (hs : s.Inv) (h : exec (decodePort w) s = .next t) : t.Inv := by
  have hfb := exec_port_fb_wf h hs.fbCanonical
  rcases exec_port_visible h with ⟨-, hr⟩ | hv | ⟨-, e, hev, hr, hrange⟩
  · exact .of_reports hfb hr (by simp) (by simp)
  · exact hs.of_sameVisible hfb hv
  · exact .of_reports hfb hr (by simp [hev]) (by simpa using hrange)

/-- Settles O3: a port word by `exec_port_inv`; a reading changes nothing the invariant speaks of. -/
theorem stepKeepsInv : Obligations.StepKeepsInv := by
  intro s t hs h
  rcases step_cases h with ⟨-, rfl⟩ | ⟨w, rest, -, hw⟩ | ⟨p, rest, n, -, -, rfl⟩
  · exact hs
  · have hs' : (s.withPending rest).Inv := hs.of_sameVisible hs.fbCanonical (.refl s)
    exact exec_port_inv hs' hw
  · exact hs.of_sameVisible hs.fbCanonical (.refl s)

/-- Settles O2: after reset nothing is in `FB`, and the state reports no event. -/
theorem resetStateMeetsInv : Obligations.ResetStateMeetsInv :=
  .of_reports (e := none) Memory.wf_nil ⟨rfl, rfl, rfl⟩ (by simp) (by simp)

/-- Settles O1, by the equation of RST. -/
theorem rstReachesTheResetValues : Obligations.RstReachesTheResetValues := fun s =>
  ⟨_, exec_rst s, rfl, rfl, rfl, RegFile.noValue_bits, rfl, rfl, rfl, rfl⟩

/-- Settles O22: a port word that is no RST and no completion leaves the visible state alone, and so does a reading. -/
theorem onlyRstAndCompletionsWriteTheRecord : Obligations.OnlyRstAndCompletionsWriteTheRecord := by
  intro s t h hne
  have changed : ¬ s.sameVisible t := fun ⟨hvalid, herr, hx, _⟩ => by simp [hvalid, herr, hx] at hne
  rcases step_cases h with ⟨-, rfl⟩ | ⟨w, rest, hp, hw⟩ | ⟨p, rest, n, -, -, rfl⟩
  · exact absurd (.refl t) changed
  · refine ⟨w, rest, hp, ?_⟩
    rcases exec_port_visible hw with ⟨hd, -⟩ | hv | ⟨hc, -⟩
    · exact .inl hd
    · exact absurd hv changed
    · exact .inr hc
  · exact absurd (.refl s) changed

/-- The words of a run without RST, from a state that reports no event: the flags report the last one they emit. -/
theorem foldl_afterWord_reports {s : State} (hs : s.Reports none) (ws : List PortWord) (hws : noRst ws) :
    ∃ es : List Event, (ws.foldl afterWord s).events = s.events ++ es ∧
      (ws.foldl afterWord s).Reports es.getLast? := by
  induction ws using List.reverseRecOn with
  | nil => exact ⟨[], by simp, hs⟩
  | append_singleton ws w ih =>
    obtain ⟨es, hev, hr⟩ := ih fun v hv => hws v (by simp [hv])
    rw [List.foldl_concat]
    rcases exec_port_visible (exec_word (ws.foldl afterWord s) w) with ⟨hd, -⟩ | hv | ⟨-, e, hev', hr', -⟩
    · exact absurd hd (hws w (by simp))
    · exact ⟨es, hv.2.2.2 ▸ hev, hr.of_sameVisible hv⟩
    · exact ⟨es ++ [e], by rw [hev', hev, List.append_assoc], by rwa [List.getLast?_concat]⟩

/-- Settles O49: RST leaves a state that reports no event; the words after it by `foldl_afterWord_reports`. -/
theorem flagsReportTheLastCompletion : Obligations.FlagsReportTheLastCompletion := by
  intro s w ws hw hws
  have hrst : afterWord s w = (s.withCnt 0).flagsCleared.withRegs RegFile.noValue := by rw [afterWord, hw]
  obtain ⟨es, hev, hr⟩ := foldl_afterWord_reports (s := afterWord s w) (by rw [hrst]; exact ⟨rfl, rfl, rfl⟩) ws hws
  refine ⟨_, es, runWords_eq (w :: ws) s, ?_, ?_⟩
  · rw [hrst] at hev
    rw [List.foldl_cons, State.withPending_events, hrst, hev]
    rfl
  · rcases he : es.getLast? with _ | c | e <;> rw [he] at hr <;> exact hr

/-! ### The output ports -/

/-- Without a valid record a record port faults when read (R21, R208). -/
theorem samplePort_reg_of_invalid {s : State} (h : s.outValid = false) (r : Reg) :
    s.samplePort (.reg r) = .fault (.recordHasNoValue (.reg r)) := by
  simp [State.samplePort, State.samplePortWith, State.readPortWith, h]

/-- Without a valid record a flag view faults when read (R21, R208). -/
theorem samplePort_flag_of_invalid {s : State} (h : s.outValid = false) (f : Flag) :
    s.samplePort (.flag f) = .fault (.recordHasNoValue (.flag f)) := by
  simp [State.samplePort, State.samplePortWith, State.readPortWith, h]

/-- A record port of a valid record shows the register's pattern (R22). -/
theorem samplePort_reg {s : State} (hv : s.outValid = true) {r : Reg} {n : Nat} (hn : s.x.bits r = some n) :
    s.samplePort (.reg r) = .next (s.noteSample ⟨.reg r, n⟩) := by
  simp [State.samplePort, State.samplePortWith, State.readPortWith, hv, hn]

/-- Where the invariant holds a valid record has its fifteen values, so every record port and flag view answers. -/
theorem State.Inv.samplePort_answers {s : State} (h : s.Inv) (hv : s.outValid = true) :
    (∀ r : Reg, ∃ n : Nat, s.x.bits r = some n ∧ s.samplePort (.reg r) = .next (s.noteSample ⟨.reg r, n⟩)) ∧
    (∀ f : Flag, ∃ b : BitVec 8, s.x.flags = some b ∧
      s.samplePort (.flag f) = .next (s.noteSample ⟨.flag f, (flagView f b).toNat⟩)) := by
  obtain ⟨c, hx, -, -⟩ := h.recordPresent hv
  refine ⟨fun r => ?_, fun f => ?_⟩
  · obtain ⟨n, hn⟩ := Option.isSome_iff_exists.1 (RegFile.ofRecord_bits_isSome c r)
    rw [← hx] at hn
    exact ⟨n, hn, samplePort_reg hv hn⟩
  · have hb : s.x.flags = some c.flags := by rw [hx]; rfl
    exact ⟨c.flags, hb, State.samplePort_flag hv hb f⟩

/-- Settles O25: the faults by the two readings without a valid record, the answers by the invariant. -/
theorem recordIsReadableExactlyWhenValid : Obligations.RecordIsReadableExactlyWhenValid := by
  intro s
  simp only [exec_viewOp]
  exact ⟨fun h => ⟨samplePort_reg_of_invalid h, samplePort_flag_of_invalid h⟩, State.Inv.samplePort_answers⟩

/-- A read that faults is of a record port or a flag view, and under the invariant of an invalid record. -/
theorem samplePort_fault {s : State} {p : OutPort} {e : Fault} (h : s.samplePort p = .fault e) :
    e = .recordHasNoValue p ∧ ((∃ r : Reg, p = .reg r) ∨ (∃ f : Flag, p = .flag f)) ∧
      (s.Inv → s.outValid = false) := by
  refine ⟨?_, ?_, fun hs => ?_⟩
  · rcases s.samplePort_cases p with ⟨n, -, hn⟩ | ⟨-, he⟩
    · rw [hn] at h
      cases h
    · rw [he] at h
      cases h
      rfl
  · cases p with
    | outValid => cases h
    | errLen => cases h
    | reg r => exact .inl ⟨r, rfl⟩
    | flag f => exact .inr ⟨f, rfl⟩
  · by_contra hv
    obtain ⟨hreg, hflag⟩ := hs.samplePort_answers (by simpa using hv)
    cases p with
    | outValid => cases h
    | errLen => cases h
    | reg r =>
      obtain ⟨n, -, hn⟩ := hreg r
      rw [hn] at h
      cases h
    | flag f =>
      obtain ⟨b, -, hb⟩ := hflag f
      rw [hb] at h
      cases h

/-- A step goes on, or it is a read of a port that faults. -/
theorem step_next_or_read (s : State) :
    (∃ t, step s = .next t) ∨ ∃ p rest e, s.pending = .read p :: rest ∧ step s = .fault e ∧
      (s.withPending rest).samplePort p = .fault e := by
  rcases hp : s.pending with _ | ⟨a, rest⟩
  · exact .inl ⟨s, step_nothing hp⟩
  · rw [step_action hp]
    cases a with
    | present w => exact .inl ⟨_, exec_word _ w⟩
    | read p =>
      rw [perform_read]
      rcases (s.withPending rest).samplePort_cases p with ⟨n, -, hn⟩ | ⟨-, he⟩
      · exact .inl ⟨_, hn⟩
      · exact .inr ⟨p, rest, _, rfl, he, he⟩

/-- Settles O7: a port word always goes on, and a read that does not is `samplePort_fault`. -/
theorem onlyReadsWithoutRecordStop : Obligations.OnlyReadsWithoutRecordStop := by
  intro s
  rcases step_next_or_read s with ⟨t, ht⟩ | ⟨p, rest, e, hp, hstep, hread⟩
  · rw [ht]
    exact ⟨nofun, nofun⟩
  · rw [hstep]
    refine ⟨nofun, fun e' he => ?_⟩
    cases he
    obtain ⟨he, hport, hinv⟩ := samplePort_fault hread
    exact ⟨p, rest, hp, he, hport, fun hs => hinv (hs.of_sameVisible hs.fbCanonical (.refl s))⟩

/-- What a port shows fits the port's width (R13, R22). -/
theorem readPort_lt {s : State} {p : OutPort} {n : Nat} (h : s.readPort p = .ok n) : n < 2 ^ p.width := by
  cases p <;> simp only [State.readPort, State.readPortWith] at h
  case outValid =>
    cases h
    exact s.outValid.toNat_lt
  case errLen =>
    cases h
    exact s.errLen.toNat_lt
  case reg r =>
    split at h
    · split at h
      · next hn =>
        cases h
        exact RegFile.bits_lt hn
      · cases h
    · cases h
  case flag f =>
    split at h
    · split at h
      · cases h
        exact Bool.toNat_lt _
      · cases h
    · cases h

/-- Settles O24: a read that answers is a noted sample. -/
theorem readsChangeNothingOfTheBlock : Obligations.ReadsChangeNothingOfTheBlock := by
  refine ⟨fun s => ⟨rfl, s.samplePort_outValid, rfl, s.samplePort_errLen⟩, fun s t p h => ?_⟩
  rcases s.samplePort_cases p with ⟨n, hn, he⟩ | ⟨-, he⟩
  · rw [he] at h
    cases h
    exact ⟨rfl, rfl, rfl, rfl, rfl, rfl, rfl, n, hn, readPort_lt hn, rfl⟩
  · rw [he] at h
    cases h

/-- Settles O17: the completion by its equation, the reads by `OUT_VALID` = 0. -/
theorem errorCompletionEffect : Obligations.ErrorCompletionEffect := by
  intro s b h
  refine ⟨_, exec_pushl_err h b, ?_⟩
  rw [ite_storeByte_eq]
  refine ⟨rfl, rfl, rfl, RegFile.noValue_bits, rfl, samplePort_reg_of_invalid rfl, fun f => ?_, rfl, rfl⟩
  rw [exec_viewOp, samplePort_flag_of_invalid rfl]

/-! ### The frame buffer -/

/-- What the canonical form says of a first entry: every other address is above it, and its byte is listed. -/
theorem Memory.wf_cons {k : Nat} {b : Byte} {m : Memory} (h : Memory.wf ((k, b) :: m)) :
    (∀ p ∈ m, k < p.1) ∧ b ≠ unlistedByte ∧ Memory.wf m := by
  obtain ⟨hs, hp⟩ := h
  obtain ⟨hlt, hm⟩ := List.pairwise_cons.1 hs
  exact ⟨hlt, (hp (k, b) List.mem_cons_self).2, hm, fun p hpm => hp p (List.mem_cons_of_mem _ hpm)⟩

/-- A canonical buffer's first address tells it from a buffer whose addresses are all above that one. -/
theorem Memory.read_first_ne {k : Nat} {b : Byte} {m n : Memory} (h : Memory.wf ((k, b) :: m))
    (hn : ∀ p ∈ n, k < p.1) : Memory.read ((k, b) :: m) k ≠ Memory.read n k := by
  rw [Memory.read_cons, if_pos rfl, Memory.read_of_lt hn]
  exact (Memory.wf_cons h).2.1

/-- Settles O26, by induction on the first buffer: the first addresses agree, or the lower one reads differently. -/
theorem canonicalBuffersAreEqualData : Obligations.CanonicalBuffersAreEqualData := by
  intro m
  induction m with
  | nil =>
    intro n _ hn heq
    match n with
    | [] => rfl
    | (l, c) :: n => exact absurd (heq l).symm (Memory.read_first_ne hn (by simp))
  | cons p m ih =>
    intro n hm hn heq
    obtain ⟨k, b⟩ := p
    match n with
    | [] => exact absurd (heq k) (Memory.read_first_ne hm (by simp))
    | (l, c) :: n =>
      obtain ⟨hkm, -, hm'⟩ := Memory.wf_cons hm
      obtain ⟨hln, -, hn'⟩ := Memory.wf_cons hn
      rcases Nat.lt_trichotomy k l with hkl | rfl | hkl
      · refine absurd (heq k) (Memory.read_first_ne hm fun q hq => ?_)
        rcases List.mem_cons.1 hq with rfl | hq
        · exact hkl
        · exact hkl.trans (hln q hq)
      · have hbc : b = c := by simpa [Memory.read_cons] using heq k
        have htail : m = n := ih n hm' hn' fun a => by
          by_cases ha : a = k
          · rw [ha, Memory.read_of_lt hkm, Memory.read_of_lt hln]
          · simpa [Memory.read_cons, ha] using heq a
        rw [hbc, htail]
      · refine absurd (heq l).symm (Memory.read_first_ne hn fun q hq => ?_)
        rcases List.mem_cons.1 hq with rfl | hq
        · exact hkl
        · exact hkl.trans (hkm q hq)

/-- The state t is s after it has collected bytes from `CNT` = 0 on: counted up to 35, the first 34 stored in order
(R11, R12, R73), nothing visible changed (R207). -/
structure State.Collected (s : State) (bs : List Byte) (t : State) : Prop where
  fbCanonical : Memory.wf t.fb
  counted : t.cnt.val = min bs.length 35
  stored : ∀ a, a < min bs.length 34 → some (Memory.read t.fb a) = bs[a]?
  untouched : ∀ a, bs.length ≤ a → Memory.read t.fb a = Memory.read s.fb a
  visible : s.sameVisible t

/-- One more byte is collected: stored at `CNT` below 34, only counted above (R73). -/
theorem State.Collected.acceptByte {s t : State} {bs : List Byte} (h : s.Collected bs t) (b : Byte) :
    s.Collected (bs ++ [b]) (t.acceptByte b) := by
  obtain ⟨hfb, hcnt, hstored, huntouched, hvis⟩ := h
  replace hvis := hvis.trans (t.acceptByte_sameVisible b)
  have hlen : (bs ++ [b]).length = bs.length + 1 := by simp
  by_cases hc : bs.length ≤ 33
  · have hat : t.cnt.val = bs.length := by omega
    have ht : t.acceptByte b = (t.withFb (Memory.write t.fb bs.length b)).withCnt (cntSucc t.cnt) := by
      rw [State.acceptByte_of_le (by omega), hat]
    rw [ht] at hvis ⊢
    refine ⟨Memory.write_wf hfb (by omega) b, ?_, fun a ha => ?_, fun a ha => ?_, hvis⟩
    · rw [State.withCnt_cnt, State.cntSucc_val (by omega)]
      omega
    · rw [State.withCnt_fb, State.withFb_fb, Memory.read_write hfb.1]
      by_cases hab : a = bs.length
      · rw [if_pos hab, hab, List.getElem?_concat_length]
      · rw [if_neg hab, List.getElem?_append_left (by omega)]
        exact hstored a (by omega)
    · rw [State.withCnt_fb, State.withFb_fb, Memory.read_write hfb.1, if_neg (by omega)]
      exact huntouched a (by omega)
  · have ht : t.acceptByte b = t.withCnt cntOvf := State.acceptByte_of_gt (by omega) b
    rw [ht] at hvis ⊢
    refine ⟨hfb, ?_, fun a ha => ?_, fun a ha => huntouched a (by omega), hvis⟩
    · show 35 = min (bs ++ [b]).length 35
      omega
    · rw [List.getElem?_append_left (by omega)]
      exact hstored a (by omega)

/-- The bytes of words that are no RST and end no presentation are collected. -/
theorem foldl_afterWord_collected {s : State} (hfb : Memory.wf s.fb) (hc : s.cnt.val = 0) (ws : List PortWord)
    (hr : noRst ws) (hl : noPushl ws) :
    s.Collected ((ws.filterMap acceptedByte).map Prod.fst) (ws.foldl afterWord s) := by
  induction ws using List.reverseRecOn with
  | nil => exact ⟨hfb, by simpa using hc, by simp, fun _ _ => rfl, .refl s⟩
  | append_singleton ws w ih =>
    have ih := ih (fun v hv => hr v (by simp [hv])) fun v hv => hl v (by simp [hv])
    have hwr := hr w (by simp)
    have hwl := hl w (by simp)
    rw [List.foldl_concat, List.filterMap_append, List.map_append]
    rcases decodePort_cases w with hd | hd | hd | hd
    · exact absurd hd hwr
    · simpa [acceptedByte, afterWord, hd] using ih
    · simpa [acceptedByte, afterWord, hd] using ih.acceptByte (w.setWidth 8)
    · simp [hd, Instr.completes] at hwl

/-- Settles O51: the run is the fold of its words, whose bytes are collected. -/
theorem bytesWithoutLastMarkOnlyCollect : Obligations.BytesWithoutLastMarkOnlyCollect := by
  intro s ws hfb hc hr hl
  obtain ⟨-, hcnt, hstored, huntouched, hvalid, herr, hx, hev⟩ := foldl_afterWord_collected hfb hc ws hr hl
  simp only [List.length_map, List.getElem?_map] at hcnt hstored huntouched
  exact ⟨_, runWords_eq ws s, hcnt, hstored, huntouched, hx.symm, hvalid.symm, herr.symm, hev.symm⟩

/-! ### Frames of every length -/

/-- The raw ranges of the fifteen registers are R13's table. -/
theorem rawRanges_eq : allRegs.map (fun r => (rawMin r, rawMax r)) =
    [(0, 16777215), (-8192, 8191), (0, 262143)] ++ List.replicate 9 (-32768, 32767) ++
      [(-536870912, 536870911), (-536870912, 536870911), (0, 255)] := by
  simp only [rawMin_eq, rawMax_eq]
  rfl

/-- Settles O42: the length alone decides, and UNPACK answers in the raw ranges. -/
theorem everyFrameDecodesInRange : Obligations.EveryFrameDecodesInRange := by
  refine ⟨rawRanges_eq, fun bs => ⟨fun h => ⟨unpack bs, if_pos h, fun r => ?_⟩, fun h => if_neg h⟩⟩
  exact unpackFrame_range (frameOfBytes bs) r

end Sys2Proof.Machine
end

section
/-! PROOFS. The statements of 20_memory.md: the frame buffer as one number, the one store of the block and the
fifteen extractions of a completion (R30 to R36). -/
namespace Sys2Proof.Machine

/-! ### The frame as a number -/

/-- A little-endian sum written as the sum of its byte terms (R31). -/
theorem leSum_eq_sum (f : Nat → Byte) (n : Nat) :
    leSum f n = ((List.range n).map (fun a => (f a).toNat * 2 ^ (8 * a))).sum := by
  induction n with
  | zero => rfl
  | succ n ih => rw [leSum, ih, List.sum_range_succ]

/-- Bit i of byte j of a number is the number's bit 8j + i (R31). -/
theorem byteOf_getLsbD (w j : Nat) {i : Nat} (hi : i < 8) : (byteOf w j).getLsbD i = w.testBit (8 * j + i) := by
  rw [byteOf, BitVec.getLsbD_ofNat, decide_eq_true hi, Bool.true_and, Nat.testBit_div_two_pow, Nat.add_comm]

/-- Frame bit k is bit k mod 8 of `FB[k div 8]` (R31). -/
theorem frameOf_testBit (m : Memory) {k : Nat} (hk : k < 272) :
    (frameOf m).testBit k = (Memory.read m (k / 8)).getLsbD (k % 8) := by
  have hbyte : byteOf (frameOf m) (k / 8) = Memory.read m (k / 8) :=
    byteOf_leSum _ (show k / 8 < 34 by omega)
  rw [← hbyte, byteOf_getLsbD _ _ (Nat.mod_lt k (by decide)), Nat.div_add_mod]

/-- Settles O27: the sum by `leSum_eq_sum`, `time_ms` from the three bytes it touches, the bits by
`frameOf_testBit`. -/
theorem frameIsLittleEndian : Obligations.FrameIsLittleEndian := by
  refine fun m => ⟨leSum_eq_sum _ 34, ?_, fun k hk => frameOf_testBit m hk⟩
  have htime : extractBits (frameOf m) (8 * 0 + 0) 24 = leSum (fun j => Memory.read m (0 + j)) 3 / 2 ^ 0 % 2 ^ 24 :=
    extract_of_bytes m (by decide) (by decide)
  have hlt : leSum (fun j => Memory.read m (0 + j)) 3 < 2 ^ 24 := leSum_lt _ 3
  rw [Nat.pow_zero, Nat.div_one, Nat.mod_eq_of_lt hlt] at htime
  refine htime.trans ?_
  simp only [leSum, Nat.zero_add]
  omega

/-! ### The one store -/

/-- A port word leaves `FB` alone, or it is a PUSH or a PUSHL that writes its byte at address `CNT`, at most 33
(R34, R73, R74). -/
theorem exec_port_fb {s t : State} {w : PortWord} (h : exec (decodePort w) s = .next t) :
    t.fb = s.fb ∨ ∃ b : Byte, (decodePort w = .push b ∨ decodePort w = .pushl b) ∧ s.cnt.val ≤ 33 ∧
      t.fb = Memory.write s.fb s.cnt.val b := by
  rcases exec_port_cases h with ⟨-, rfl⟩ | ⟨-, rfl⟩ | ⟨b, hd, rfl⟩ | ⟨b, hd, hc, rfl⟩ | ⟨b, hd, -, rfl⟩
  · exact .inl rfl
  · exact .inl rfl
  · by_cases hc : s.cnt.val ≤ 33
    · exact .inr ⟨b, .inl hd, hc, by rw [State.acceptByte_of_le hc]; rfl⟩
    · exact .inl (by rw [State.acceptByte_of_gt (by omega)]; rfl)
  · exact .inr ⟨b, .inr hd, hc.le, by rw [hc]; exact s.storeByte_fb 33 b⟩
  · by_cases hc : s.cnt.val ≤ 32
    · rw [if_pos hc]
      exact .inr ⟨b, .inr hd, by omega, s.storeByte_fb _ b⟩
    · rw [if_neg hc]
      exact .inl rfl

/-- Settles O23: only a port word can write `FB`, by `exec_port_fb`, and a write changes what its own address reads. -/
theorem storesGoToTheCounterOnly : Obligations.StoresGoToTheCounterOnly := by
  intro s t a hfb h hne
  rcases step_cases h with ⟨-, rfl⟩ | ⟨w, rest, hp, hw⟩ | ⟨p, rest, n, -, -, rfl⟩
  · exact absurd rfl hne
  · rcases exec_port_fb hw with heq | ⟨b, hd, hc, heq⟩
    · exact absurd (by rw [heq]; rfl) hne
    · have ha : a = s.cnt.val := by
        by_contra ha
        exact hne (by rw [heq, State.withPending_fb, State.withPending_cnt, Memory.read_write hfb.1, if_neg ha])
      exact ⟨ha, ha ▸ hc, w, rest, b, hp, hd⟩
  · exact absurd rfl hne

/-! ### The fifteen extractions -/

/-- The rows of a well-formed table write distinct registers, so run in any order over one frame they leave the same
register file (R36, R61). -/
theorem foldl_write_perm {L rows : Layout} (hL : L.wf = true) (h : rows.Perm L) (x : RegFile) (F : Nat) :
    rows.foldl (fun y row => y.write row.reg (fieldValue row F)) x =
      L.foldl (fun y row => y.write row.reg (fieldValue row F)) x := by
  refine h.foldl_eq' (fun row hrow q hq y => ?_) x
  by_cases heq : row = q
  · rw [heq]
  · obtain ⟨hreg, -⟩ := layout_wf_disjoint hL (h.subset hrow) (h.subset hq) heq
    exact RegFile.write_comm y hreg _ _

/-- The fifteen extractions in any order, all from one `FB`, leave the whole record of R75 (R36). -/
theorem runOps_perm_extractOps {ops : List Instr} (h : ops.Perm extractOps) (s : State) :
    runOps ops s = .next (s.withRegs (RegFile.ofRecord (unpackFrame (frameOf s.fb)))) := by
  have hrows : (ops.filterMap extractRow).Perm layoutV7 := h.filterMap extractRow
  have hall : ∀ i ∈ extractOps, (extractRow i).isSome := by decide
  have hmap : ops.map extractRow = (ops.filterMap extractRow).map some := by
    rw [List.map_filterMap_some_eq_filter_map_isSome, List.filter_eq_self.2]
    simpa using fun i hi => hall i (h.subset hi)
  rw [runOps_extract hmap, foldl_write_perm (by decide) hrows, extract_all_rows]

/-- Settles O18: the completion by its equation, the extractions by `runOps_perm_extractOps`. -/
theorem okCompletionRunsTheExtractions : Obligations.OkCompletionRunsTheExtractions := by
  refine ⟨fun s b hc => ?_, fun ops s h => ?_⟩
  · exact ⟨_, _, exec_pushl_ok hc b, runOps_perm_extractOps (.refl _) _, rfl, rfl⟩
  · rw [runOps_perm_extractOps h, runOps_perm_extractOps (.refl _)]

end Sys2Proof.Machine
end

section
/-! PROOFS. The statements of 30_encoding.md: frames of a field table (R61, R91, R152, R153), the port word and its
encodings (R50, R58, R62), the coordinates and the unused bits (R54, R56). -/
namespace Sys2Proof.Machine

/-! ### A frame by its fields -/

/-- Frame bit k lies in the row's range, so it is a bit of its field (R51). -/
def Covers (row : FieldRow) (k : Nat) : Prop := row.offset ≤ k ∧ k < row.offset + row.width

theorem usedMask_testBit_iff (L : Layout) (k : Nat) : L.usedMask.testBit k = true ↔ ∃ row ∈ L, Covers row k := by
  simp [usedMask_testBit, Covers]

/-- In a well-formed table two rows that cover the same bit are the same row (R61). -/
theorem covers_unique {L : Layout} (hL : L.wf = true) {r q : FieldRow} (hr : r ∈ L) (hq : q ∈ L) {k : Nat}
    (hrk : Covers r k) (hqk : Covers q k) : r = q := by
  obtain ⟨hr1, hr2⟩ := hrk
  obtain ⟨hq1, hq2⟩ := hqk
  by_contra hne
  obtain ⟨-, hd⟩ := layout_wf_disjoint hL hr hq hne
  omega

/-- A well-formed table is well formed after its first row, which covers no bit of the others (R61). -/
theorem layout_wf_cons {r : FieldRow} {L : Layout} (h : Layout.wf (r :: L) = true) :
    L.wf = true ∧ ∀ q ∈ L, ∀ k, Covers r k → ¬ Covers q k := by
  simp only [Layout.wf, Bool.and_eq_true, List.all_eq_true] at h
  obtain ⟨⟨-, hd⟩, hL⟩ := h
  refine ⟨hL, fun q hq k ⟨hr1, hr2⟩ ⟨hq1, hq2⟩ => ?_⟩
  have hrq := (hd q hq).2
  simp only [FieldRow.disjoint, Bool.or_eq_true, decide_eq_true_eq] at hrq
  omega

/-- A covered bit of a frame is a bit of its row's field (R90). -/
theorem extractBits_testBit_of_covers {row : FieldRow} {k : Nat} (h : Covers row k) (F : Nat) :
    (extractBits F row.offset row.width).testBit (k - row.offset) = F.testBit k := by
  obtain ⟨h1, h2⟩ := h
  rw [extractBits_testBit, decide_eq_true (by omega), Bool.true_and, Nat.sub_add_cancel h1]

/-- A field is fixed by the bits it covers (R91 c). -/
theorem extractBits_congr {F G o w : Nat} (h : ∀ k, o ≤ k → k < o + w → F.testBit k = G.testBit k) :
    extractBits F o w = extractBits G o w := by
  apply Nat.eq_of_testBit_eq
  intro i
  rw [extractBits_testBit, extractBits_testBit]
  by_cases hi : i < w
  · rw [h (i + o) (by omega) (by omega)]
  · simp [hi]

/-- The bits a table does not use are in none of its fields (R56). -/
theorem extractBits_and_usedMask {L : Layout} {row : FieldRow} (hr : row ∈ L) (F : Nat) :
    extractBits (F &&& L.usedMask) row.offset row.width = extractBits F row.offset row.width := by
  refine extractBits_congr fun k h1 h2 => ?_
  rw [Nat.testBit_and, (usedMask_testBit_iff L k).2 ⟨row, hr, h1, h2⟩, Bool.and_true]

/-- Frames with unused bits 0 and the same fields are equal (R91 d). -/
theorem eq_of_fields_eq {L : Layout} {F G : Nat} (hF : F &&& L.usedMask = F) (hG : G &&& L.usedMask = G)
    (h : ∀ row ∈ L, extractBits F row.offset row.width = extractBits G row.offset row.width) : F = G := by
  rw [← hF, ← hG]
  apply Nat.eq_of_testBit_eq
  intro k
  rw [Nat.testBit_and, Nat.testBit_and]
  by_cases hk : L.usedMask.testBit k = true
  · obtain ⟨row, hr, hc⟩ := (usedMask_testBit_iff L k).1 hk
    rw [← extractBits_testBit_of_covers hc F, h row hr, extractBits_testBit_of_covers hc G]
  · simp [hk]

/-- The frame that holds a number at each row of a table, unused bits 0: `packWith` without its patterns (R150). -/
def packRows (L : Layout) (g : FieldRow → Nat) : Nat := (L.map (fun row => g row * 2 ^ row.offset)).sum

theorem packWith_eq_packRows (L : Layout) (v : Reg → Int) :
    packWith L v = packRows L (fun row => pattern (v row.reg) row.width) := rfl

/-- A shifted number that fits its field has only bits its row covers. -/
theorem testBit_field_iff {row : FieldRow} {x : Nat} (hx : x < 2 ^ row.width) (k : Nat) :
    (x * 2 ^ row.offset).testBit k = true ↔ Covers row k ∧ x.testBit (k - row.offset) = true := by
  rw [Nat.testBit_mul_two_pow, Bool.and_eq_true, decide_eq_true_eq, Covers]
  refine ⟨fun ⟨h1, h2⟩ => ⟨⟨h1, ?_⟩, h2⟩, fun ⟨⟨h1, _⟩, h2⟩ => ⟨h1, h2⟩⟩
  by_contra hk
  rw [testBit_above hx (by omega)] at h2
  cases h2

section
variable {L : Layout} {g : FieldRow → Nat} (hL : L.wf = true) (hg : ∀ row ∈ L, g row < 2 ^ row.width)
include hL hg

/-- The bits of a packed frame: each is a bit of the one row that covers it (R150). By induction on the table: rows
without a common bit add up to their bitwise or. -/
theorem packRows_testBit_iff (k : Nat) :
    (packRows L g).testBit k = true ↔ ∃ row ∈ L, Covers row k ∧ (g row).testBit (k - row.offset) = true := by
  induction L generalizing k with
  | nil => simp [packRows]
  | cons r L ih =>
    obtain ⟨htail, hhead⟩ := layout_wf_cons hL
    have ih := ih htail fun row hr => hg row (List.mem_cons_of_mem r hr)
    have hr := testBit_field_iff (hg r List.mem_cons_self)
    have hdisj : g r * 2 ^ r.offset &&& packRows L g = 0 := by
      apply Nat.eq_of_testBit_eq
      intro i
      rw [Nat.testBit_and, Nat.zero_testBit, ← Bool.not_eq_true, Bool.and_eq_true]
      rintro ⟨h1, h2⟩
      obtain ⟨hri, -⟩ := (hr i).1 h1
      obtain ⟨q, hq, hqi, -⟩ := (ih i).1 h2
      exact hhead q hq i hri hqi
    have hsum : packRows (r :: L) g = g r * 2 ^ r.offset ||| packRows L g := by
      rw [← add_eq_or_of_disjoint hdisj, packRows, List.map_cons, List.sum_cons, packRows]
    rw [hsum, Nat.testBit_or, Bool.or_eq_true, hr, ih, List.exists_mem_cons_iff]

/-- A packed frame has its unused bits 0 (R150). -/
theorem packRows_and_usedMask : packRows L g &&& L.usedMask = packRows L g := by
  apply Nat.eq_of_testBit_eq
  intro k
  rw [Nat.testBit_and, Bool.and_eq_left_iff_imp]
  intro hk
  obtain ⟨row, hr, hc, -⟩ := (packRows_testBit_iff hL hg k).1 hk
  exact (usedMask_testBit_iff L k).2 ⟨row, hr, hc⟩

/-- A packed frame is a frame of 272 bits (R61). -/
theorem packRows_lt {n : Nat} (hn : 272 ≤ n) : packRows L g < 2 ^ n := by
  refine Nat.lt_pow_two_of_testBit _ fun k hk => ?_
  rw [← Bool.not_eq_true, packRows_testBit_iff hL hg]
  rintro ⟨row, hr, ⟨-, hlt⟩, -⟩
  obtain ⟨-, hle, -⟩ := Layout.row_of_wf hL hr
  omega

/-- Each field of a packed frame is the number packed there (R153). -/
theorem extractBits_packRows {row : FieldRow} (hr : row ∈ L) :
    extractBits (packRows L g) row.offset row.width = g row := by
  apply Nat.eq_of_testBit_eq
  intro i
  rw [extractBits_testBit]
  by_cases hi : i < row.width
  · have hc : Covers row (i + row.offset) := ⟨by omega, by omega⟩
    rw [decide_eq_true hi, Bool.true_and, Bool.eq_iff_iff, packRows_testBit_iff hL hg]
    constructor
    · rintro ⟨q, hq, hqc, hbit⟩
      rwa [covers_unique hL hq hr hqc hc, Nat.add_sub_cancel] at hbit
    · exact fun hbit => ⟨row, hr, hc, by rwa [Nat.add_sub_cancel]⟩
  · rw [testBit_above (hg row hr) (by omega), decide_eq_false hi, Bool.false_and]

end

/-- Settles O30: the frame packed with the values has them; a second such frame has the same fields. -/
theorem fieldsOfAWellFormedTableAreIndependent : Obligations.FieldsOfAWellFormedTableAreIndependent := by
  intro L v hL hv
  have hfields : ∀ row ∈ L, extractBits (packRows L fun row => v row.reg) row.offset row.width = v row.reg :=
    fun row hr => extractBits_packRows hL hv hr
  have hused := packRows_and_usedMask hL hv
  refine ⟨packRows L fun row => v row.reg, ⟨packRows_lt hL hv le_rfl, hused, hfields⟩, fun G _ hG hGv => ?_⟩
  exact eq_of_fields_eq hG hused fun row hr => by rw [hGv row hr, hfields row hr]

/-! ### The round trip of values -/

/-- The pattern of a value is what a register of that width holds (R5). -/
theorem pattern_eq_toNat (v : Int) (w : Nat) : pattern v w = (BitVec.ofInt w v).toNat := by
  rw [pattern, BitVec.toNat_ofInt]
  push_cast
  rfl

/-- Sign extension of a bit vector's number is its two's-complement integer (R110). -/
theorem sext_toNat {n : Nat} (hn : 1 ≤ n) (b : BitVec n) : sext n b.toNat = b.toInt := by
  have hp := two_pow_pred hn
  rw [BitVec.toInt_eq_toNat_cond, sext]
  push_cast
  by_cases h : b.toNat < 2 ^ (n - 1)
  · rw [if_pos h, if_pos (by omega)]
  · rw [if_neg h, if_neg (by omega)]

/-- A value that fits a row's field: the signed or the unsigned range of its width (R91 a, R123 a). -/
def Fits (row : FieldRow) (z : Int) : Prop :=
  if row.signed then -(2 ^ (row.width - 1) : Int) ≤ z ∧ z < (2 ^ (row.width - 1) : Int)
  else 0 ≤ z ∧ z < (2 ^ row.width : Int)

/-- A field that holds the pattern of a value that fits it has that value (R123 b, R153). -/
theorem fieldValue_of_pattern {row : FieldRow} (hw : 1 ≤ row.width) {z : Int} (hz : Fits row z) {F : Nat}
    (h : extractBits F row.offset row.width = pattern z row.width) : fieldValue row F = z := by
  rw [pattern_eq_toNat] at h
  cases hs : row.signed <;> simp only [Fits, hs, if_true, Bool.false_eq_true, if_false] at hz
  · rw [fieldValue_unsigned hs, h, toNat_ofInt_of_range hz.1 hz.2]
  · rw [fieldValue_signed hs, h, sext_toNat hw, toInt_ofInt_of_range hw hz.1 hz.2]

/-- Each field of a packed frame is the pattern of its value (R150). -/
theorem extractBits_packWith {L : Layout} (hL : L.wf = true) (v : Reg → Int) {row : FieldRow} (hr : row ∈ L) :
    extractBits (packWith L v) row.offset row.width = pattern (v row.reg) row.width := by
  rw [packWith_eq_packRows, extractBits_packRows hL (fun _ _ => pattern_lt _ _) hr]

theorem packWith_and_usedMask {L : Layout} (hL : L.wf = true) (v : Reg → Int) :
    packWith L v &&& L.usedMask = packWith L v := by
  rw [packWith_eq_packRows, packRows_and_usedMask hL fun _ _ => pattern_lt _ _]

/-- Packing the values a table reads in a frame gives the frame with its unused bits 0 (R152). -/
theorem packWith_valueWith {L : Layout} (hL : L.wf = true) (F : Nat) :
    packWith L (fun r => (valueWith L F r).getD 0) = F &&& L.usedMask := by
  refine eq_of_fields_eq (packWith_and_usedMask hL _) (by rw [Nat.and_assoc, Nat.and_self]) fun row hr => ?_
  rw [extractBits_packWith hL _ hr, extractBits_and_usedMask hr, valueWith_of_mem hL hr, Option.getD_some,
    pattern_fieldValue]

/-- What a table reads in a packed frame is the packed value where it fits its field (R153). -/
theorem valueWith_packWith {L : Layout} (hL : L.wf = true) {v : Reg → Int} {row : FieldRow} (hr : row ∈ L)
    (hv : Fits row (v row.reg)) : valueWith L (packWith L v) row.reg = some (v row.reg) := by
  obtain ⟨hw, -⟩ := Layout.row_of_wf hL hr
  rw [valueWith_of_mem hL hr, fieldValue_of_pattern hw hv (extractBits_packWith hL v hr)]

/-- Settles O45, by the two laws. -/
theorem roundTripHoldsForEveryTable : Obligations.RoundTripHoldsForEveryTable := fun _ hL =>
  ⟨packWith_valueWith hL, fun _ hv row hr => valueWith_packWith hL hr (hv row hr)⟩

/-! ### The port word -/

/-- The four rows read the three control bits and no bit of the byte (R58). -/
theorem selects_append {row : PortRow} (hr : row ∈ portRows) (h : BitVec 3) (b : Byte) :
    row.selects (h ++ b) = row.selects (h ++ 0#8) := by
  have key : row.mask = row.mask.extractLsb' 8 3 ++ 0#8 := by revert row; decide
  rw [PortRow.selects, PortRow.selects, key, BitVec.and_append, BitVec.and_append, BitVec.and_zero, BitVec.and_zero]

/-- Which operation a port word selects rests on its control bits (R58). -/
theorem portName_append (h : BitVec 3) (b : Byte) :
    (decodePort (h ++ b)).portName = (decodePort (h ++ 0#8)).portName := by
  rw [decodePort_append, decodePort_append]
  split
  · rfl
  · split
    · split <;> rfl
    · rfl

/-- The rows a port word selects are one row, of the decoded operation's name (R58): its byte does not matter, and
for the eight values of the control bits it is evaluated. -/
theorem selected_names (w : PortWord) :
    (portRows.filter (fun r => r.selects w)).map PortRow.name = (decodePort w).portName.toList := by
  obtain ⟨h, b, rfl⟩ := port_split w
  rw [List.filter_congr fun r hr => selects_append hr h b, portName_append h b]
  revert h
  decide

/-- A port word decodes to an operation with a port word of its own (R58, R59). -/
theorem encodePort_decodePort (w : PortWord) : ∃ v, encodePort (decodePort w) = some v := by
  rcases decodePort_cases w with h | h | h | h <;> exact ⟨_, by rw [h]; rfl⟩

theorem portName_decodePort (w : PortWord) : ∃ n, (decodePort w).portName = some n := by
  rcases decodePort_cases w with h | h | h | h <;> exact ⟨_, by rw [h]; rfl⟩

/-- Settles O8: one row by `selected_names`, the four classes by the branches of the decoder. -/
theorem everyPortWordSelectsOneRow : Obligations.EveryPortWordSelectsOneRow := by
  intro w
  refine ⟨?_, fun h10 => ?_, fun h10 h9 => ?_, fun h10 h9 h8 => ?_, fun h10 h9 h8 => ?_⟩
  · obtain ⟨n, hn⟩ := portName_decodePort w
    have hrows := selected_names w
    rw [hn, Option.toList_some, List.map_eq_singleton_iff] at hrows
    obtain ⟨row, hrow, rfl⟩ := hrows
    exact ⟨row, hrow, hn⟩
  · rw [decodePort, if_pos h10]
  · rw [decodePort, h10, h9]
    rfl
  · rw [decodePort, h10, h9, h8]
    rfl
  · rw [decodePort, h10, h9, h8]
    rfl

/-! ### Encoding and decoding -/

/-- The bits of a port word above its byte are its control bits (R58). -/
theorem port_high (h : BitVec 3) (b : Byte) : ((h ++ b : PortWord) >>> 8).setWidth 8 = h.setWidth 8 := by
  apply BitVec.eq_of_getLsbD_eq
  intro i hi
  simp only [BitVec.getLsbD_setWidth, BitVec.getLsbD_ushiftRight, port_getLsbD]

/-- A port word travels in two bytes, its byte first and then its control bits (R58). -/
theorem decode_portBytes (w : PortWord) : decode [w.setWidth 8, (w >>> 8).setWidth 8] = .ok [decodePort w] := by
  obtain ⟨h, b, rfl⟩ := port_split w
  have hlt : (h.setWidth 8).toNat < 8 := by
    rw [BitVec.toNat_setWidth_of_le (by decide)]
    exact h.isLt
  have hback : (h.setWidth 8).setWidth 3 = h := by simp
  rw [port_low, port_high, decode, isPortWordBytes, decide_eq_true hlt, if_pos rfl, hback]

/-- 34 bytes are a frame, which selects every extraction and every view (R50, R62). -/
theorem decode_frame {bytes : List Byte} (h : bytes.length = 34) : decode bytes = .ok (extractOps ++ viewOps) := by
  unfold decode
  split
  · simp at h
  · exact if_pos h

/-- An operation with a port word is what its port word decodes to (R58). -/
theorem decodePort_of_encodePort {i : Instr} {w : PortWord} (h : encodePort i = some w) : decodePort w = i := by
  cases i <;> cases h
  case rst => decide
  case idle => decide
  case push b => exact decodePort_push b
  case pushl b => exact decodePort_pushl b

/-- An operation without a port word is of another format than PORT, and among those every frame selects (R62). -/
theorem mem_frameOps {i : Instr} (h : encodePort i = none) : i ∈ extractOps ++ viewOps ∧ i.format ≠ .port := by
  cases i <;> cases h <;> decide

/-- A word that presents a byte has the control bits of PUSH or of PUSHL (R58). -/
theorem control_of_valid {h : BitVec 3} (h2 : h.getLsbD 2 = false) (h1 : h.getLsbD 1 = true) :
    h = 0b010#3 ∨ h = 0b011#3 := by
  revert h
  decide

/-- Settles O9: an operation is encoded by its port word or, without one, by the frame of zeros. -/
theorem encodeThenDecodeGivesTheOperation : Obligations.EncodeThenDecodeGivesTheOperation := by
  refine ⟨fun i => ?_, fun w => ?_, fun bytes h => decode_frame h⟩
  · rcases h : encodePort i with _ | w
    · obtain ⟨hmem, hformat⟩ := mem_frameOps h
      refine ⟨extractOps ++ viewOps, ?_, hmem, fun hf => absurd hf hformat⟩
      rw [encode, h]
      exact decode_frame List.length_replicate
    · refine ⟨[i], ?_, List.mem_singleton_self i, fun _ => rfl⟩
      rw [encode, h, ← decodePort_of_encodePort h]
      exact decode_portBytes w
  · obtain ⟨v, hv⟩ := encodePort_decodePort w
    refine ⟨v, hv, decodePort_of_encodePort hv, fun h10 h9 => ?_⟩
    obtain ⟨h, b, rfl⟩ := port_split w
    rcases control_of_valid ((port_getLsbD h b 2).symm.trans h10) ((port_getLsbD h b 1).symm.trans h9) with rfl | rfl
    · rw [decodePort_push] at hv
      exact (Option.some.inj hv).symm
    · rw [decodePort_pushl] at hv
      exact (Option.some.inj hv).symm

/-- Settles O10, by evaluation of the decoder on the words written out. -/
theorem writtenOutWordsDecode : Obligations.WrittenOutWordsDecode := by
  unfold Obligations.WrittenOutWordsDecode
  decide

/-! ### Placed words -/

/-- The bytes of a port word's number are its byte and its control bits (R31, R58). -/
theorem bytesOf_portWord (w : PortWord) : bytesOf 2 w.toNat = [w.setWidth 8, (w >>> 8).setWidth 8] := by
  have h0 : byteOf w.toNat 0 = w.setWidth 8 := by
    rw [byteOf, Nat.pow_zero, Nat.div_one, BitVec.ofNat_toNat]
  have h1 : byteOf w.toNat 1 = (w >>> 8).setWidth 8 := by
    rw [byteOf, ← Nat.shiftRight_eq_div_pow, ← BitVec.toNat_ushiftRight, BitVec.ofNat_toNat]
  rw [← h0, ← h1]
  rfl

theorem decodeTableWord_portWord (w : PortWord) : decodeTableWord 16 w.toNat = some (decodePort w) := by
  rw [decodeTableWord, if_pos (by decide), decodeFirst, bytesOf_portWord, decode_portBytes]

/-- A step with an action put in front makes that action (R70). -/
theorem step_presentNext (s : State) (a : HostAction) : step (s.presentNext a) = perform a s :=
  step_action rfl

/-- The frame that stands in `FB` when its first 33 bytes are placed and its last byte is stored (R31). -/
theorem frameOf_placed (F : Nat) :
    frameOf (Memory.write (Memory.ofBytes (bytesOf 33 F)) 33 (byteOf F 33)) = F % 2 ^ (8 * 34) := by
  have hlen : (bytesOf 33 F).length ≤ 34 := by rw [bytesOf_length]; decide
  rw [frameOf, ← leSum_byteOf]
  refine leSum_congr fun a ha => ?_
  rw [Memory.read_write (Memory.ofBytes_wf _ hlen).1, Memory.read_ofBytes hlen]
  split
  · next h => rw [h]
  · next h =>
    have hlt : a < 34 := ha
    exact bytesOf_getD F (by omega)

/-- A PUSHL after 33 bytes that completes a frame: the OK completion with that frame's record (R75). -/
theorem exec_pushl_of_frame (s : State) {m : Memory} {b : Byte} {F : Nat} (hF : frameOf (Memory.write m 33 b) = F) :
    ∃ t : State, exec (.pushl b) ((s.withFb m).withCnt 33) = .next t ∧ t.x = RegFile.ofRecord (unpackFrame F) ∧
      t.outValid = true ∧ t.errLen = false ∧ t.events = s.events ++ [.ok (unpackFrame F)] ∧
      t.pending = s.pending := by
  refine ⟨_, exec_pushl_ok rfl b, ?_⟩
  rw [State.commitOk_eq, State.storeByte_fb, State.withCnt_fb, State.withFb_fb, hF]
  exact ⟨rfl, rfl, rfl, rfl, rfl⟩

/-- A placed frame is presented by a PUSHL of its last byte, after its first 33 bytes (R74). -/
theorem step_withFetchWord_frame (s : State) (F : Nat) :
    step (s.withFetchWord 272 F) =
      exec (.pushl (byteOf F 33)) ((s.withFb (Memory.ofBytes (bytesOf 33 F))).withCnt 33) := by
  rw [State.withFetchWord, if_neg (by decide), step_presentNext, perform_present, decodePort_pushl]

/-- Settles O5: a port word by the decoder over its two bytes, a frame by the completion that runs on it. -/
theorem placedWordIsRunByTheNextStep : Obligations.PlacedWordIsRunByTheNextStep := by
  refine ⟨fun s w => ⟨decodeTableWord_portWord w, ?_⟩, fun s bs h => ?_⟩
  · rw [State.withFetchWord, if_pos (by decide), step_presentNext, perform_present, BitVec.ofNat_toNat,
      BitVec.setWidth_eq]
  · have hF : frameOfBytes bs < 2 ^ (8 * 34) := leSum_lt _ 34
    rw [show decodeBytes bs = .ok (unpack bs) from if_pos h, step_withFetchWord_frame]
    exact exec_pushl_of_frame s ((frameOf_placed _).trans (Nat.mod_eq_of_lt hF))

/-! ### The coordinates and the unused bits -/

/-- A 30-bit field that starts on a byte is the low 30 bits of the word of its four bytes (R54). -/
theorem extract_coordinate (m : Memory) {a : Nat} (h : a + 4 ≤ 34) :
    ∃ W : Nat, memRead m a 4 = some W ∧ extractBits (frameOf m) (8 * a) 30 = W % 2 ^ 30 := by
  refine ⟨_, memRead_eq m h, ?_⟩
  have := extract_of_bytes m (s := 0) (w := 30) h (by decide)
  rwa [Nat.add_zero, Nat.pow_zero, Nat.div_one] at this

/-- Settles O33: both coordinates by `extract_coordinate`, each a signed row of `LAYOUT_V7`. -/
theorem coordinatesAreMaskedWords : Obligations.CoordinatesAreMaskedWords := by
  intro m
  obtain ⟨W, hW, hlat⟩ := extract_coordinate m (a := 25) (by decide)
  obtain ⟨V, hV, hlon⟩ := extract_coordinate m (a := 29) (by decide)
  refine ⟨⟨W, hW, hlat, ?_⟩, ⟨V, hV, hlon, ?_⟩⟩
  · rw [fieldValue_signed rfl, ← hlat]
    rfl
  · rw [fieldValue_signed rfl, ← hlon]
    rfl

/-- A row's value is fixed by the bits it covers (R91 c). -/
theorem fieldValue_congr {row : FieldRow} {F G : Nat} (h : ∀ k, Covers row k → F.testBit k = G.testBit k) :
    fieldValue row F = fieldValue row G := by
  rw [fieldValue, fieldValue, extractBits_congr fun k h1 h2 => h k ⟨h1, h2⟩]

/-- Frames with the same fifteen values unpack to the same record (R77). -/
theorem unpackFrame_congr {F G : Nat} (h : ∀ r, fieldValue (rowOf r) F = fieldValue (rowOf r) G) :
    unpackFrame F = unpackFrame G := by
  simp only [unpackFrame, unpackWith, config_row, h]

/-- The fields of `LAYOUT_V7` leave out the four unused bits (R51, R56). -/
theorem layoutV7_unused : ∀ row ∈ layoutV7, row.offset + row.width ≤ 272 ∧
    ∀ k ∈ [230, 231, 262, 263], k < row.offset ∨ row.offset + row.width ≤ k := by decide

/-- Settles O41: no row of `LAYOUT_V7` covers an unused bit. -/
theorem unusedBitsAreIgnored : Obligations.UnusedBitsAreIgnored := by
  refine fun F G h => unpackFrame_congr fun r => fieldValue_congr fun k ⟨h1, h2⟩ => ?_
  obtain ⟨hle, hunused⟩ := layoutV7_unused (rowOf r) (rowOf_mem r)
  have hne : ∀ u ∈ [230, 231, 262, 263], k ≠ u := fun u hu => by have := hunused u hu; omega
  simp only [List.forall_mem_cons] at hne
  obtain ⟨h230, h231, h262, h263, -⟩ := hne
  exact h k (by omega) h230 h231 h262 h263

/-- Rows that share no bit have masks that share none (R62). -/
theorem frameMask_disjoint {r q : FieldRow} (h : r.disjoint q = true) : r.frameMask &&& q.frameMask = 0 := by
  simp only [FieldRow.disjoint, Bool.or_eq_true, decide_eq_true_eq] at h
  apply Nat.eq_of_testBit_eq
  intro k
  rw [Nat.testBit_and, frameMask_testBit, frameMask_testBit, Nat.zero_testBit]
  simp only [← Bool.not_eq_true, Bool.and_eq_true, decide_eq_true_eq]
  omega

/-- Settles O11: the masks are disjoint because the table is well formed; the rest is evaluated. -/
theorem layoutV7IsWellFormed : Obligations.LayoutV7IsWellFormed := by
  have hL : layoutV7.wf = true := by decide
  refine ⟨hL, ?_, by decide +kernel, rfl, by decide⟩
  exact (layout_wf_rows hL).2.imp fun ⟨_, hd⟩ => frameMask_disjoint hd

end Sys2Proof.Machine
end

section
/-! PROOFS. The statements of 40_interface_ops.md: the four operations of the host, the event of each completion and
the runs of whole presentations (R70 to R79). -/
namespace Sys2Proof.Machine

/-! ### The byte of a PUSH or a PUSHL -/

/-- `FB` after a PUSH or a PUSHL: the byte at `FB[CNT]` while `CNT <= 33`, else unchanged (R73, R74). -/
def State.acceptedFb (s : State) (b : Byte) : Memory :=
  if s.cnt.val ≤ 33 then Memory.write s.fb s.cnt.val b else s.fb

theorem State.acceptedFb_of_le {s : State} (h : s.cnt.val ≤ 33) (b : Byte) :
    s.acceptedFb b = Memory.write s.fb s.cnt.val b := if_pos h

theorem State.acceptedFb_of_gt {s : State} (h : 33 < s.cnt.val) (b : Byte) : s.acceptedFb b = s.fb :=
  if_neg (by omega)

/-- PUSH stores its byte as `acceptedFb` says. -/
theorem State.acceptByte_fb (s : State) (b : Byte) : (s.acceptByte b).fb = s.acceptedFb b := by
  by_cases h : s.cnt.val ≤ 33
  · rw [acceptByte_of_le h, acceptedFb_of_le h, withCnt_fb, withFb_fb]
  · rw [acceptByte_of_gt (by omega), acceptedFb_of_gt (by omega), withCnt_fb]

/-- An accepted byte is read at `CNT`, and every other address reads as before (R73, R74). -/
theorem State.read_acceptedFb_of_le {s : State} (hfb : Memory.wf s.fb) (h : s.cnt.val ≤ 33) (b : Byte) :
    Memory.read (s.acceptedFb b) s.cnt.val = b ∧
      ∀ a, a ≠ s.cnt.val → Memory.read (s.acceptedFb b) a = Memory.read s.fb a := by
  rw [acceptedFb_of_le h]
  exact ⟨by rw [Memory.read_write hfb.1, if_pos rfl], fun a ha => by rw [Memory.read_write hfb.1, if_neg ha]⟩

/-- A discarded byte changes no address (R73, R74). -/
theorem State.read_acceptedFb_of_gt {s : State} (h : 33 < s.cnt.val) (b : Byte) (a : Nat) :
    Memory.read (s.acceptedFb b) a = Memory.read s.fb a := by
  rw [acceptedFb_of_gt h]

/-! ### What a PUSHL does -/

/-- The event a PUSHL emits: the record of the 34 bytes in `FB`, or the one exception (R74, R75, R76). -/
def State.completion (s : State) (b : Byte) : Event :=
  if s.cnt.val = 33 then .ok (unpackFrame (frameOf (s.acceptedFb b))) else .err .invalidLength

theorem State.completion_of_eq {s : State} (h : s.cnt.val = 33) (b : Byte) :
    s.completion b = .ok (unpackFrame (frameOf (s.acceptedFb b))) := if_pos h

theorem State.completion_of_ne {s : State} (h : s.cnt.val ≠ 33) (b : Byte) :
    s.completion b = .err .invalidLength := if_neg h

/-- The state t is s after a PUSHL of the byte b (R74). -/
structure State.Completed (s : State) (b : Byte) (t : State) : Prop where
  counter : t.cnt = 0
  stored : t.fb = s.acceptedFb b
  emitted : t.events = s.events ++ [s.completion b]
  reported : t.Reports (some (s.completion b))
  samples : t.samples = s.samples
  pending : t.pending = s.pending

/-- A PUSHL goes on and completes, by its two equations (R74). -/
theorem exec_pushl (s : State) (b : Byte) : ∃ t : State, exec (.pushl b) s = .next t ∧ s.Completed b t := by
  by_cases h : s.cnt.val = 33
  · have hfb : (s.storeByte 33 b).fb = s.acceptedFb b := by rw [State.acceptedFb_of_le h.le, h, State.storeByte_fb]
    have hdone := State.completion_of_eq h b
    rw [← hfb] at hdone
    exact ⟨_, exec_pushl_ok h b, rfl, hfb, by rw [hdone]; rfl, by rw [hdone]; exact ⟨rfl, rfl, rfl⟩, rfl, rfl⟩
  · have hfb : (if s.cnt.val ≤ 32 then Memory.write s.fb s.cnt.val b else s.fb) = s.acceptedFb b :=
      if_congr (by omega) rfl rfl
    refine ⟨_, exec_pushl_err h b, ?_⟩
    have hdone := State.completion_of_ne h b
    rw [ite_storeByte_eq, hfb]
    exact ⟨rfl, rfl, by rw [hdone]; rfl, by rw [hdone]; exact ⟨rfl, rfl, rfl⟩, rfl, rfl⟩

/-- A port word emits nothing, or it is a PUSHL that completes (R74, R79). -/
theorem exec_port_emits {s t : State} {w : PortWord} (h : exec (decodePort w) s = .next t) :
    ((decodePort w).completes = false ∧ t.events = s.events) ∨
      ∃ b : Byte, decodePort w = .pushl b ∧ s.Completed b t := by
  rcases decodePort_cases w with hd | hd | hd | hd <;> rw [hd] at h ⊢
  · cases h
    exact .inl ⟨rfl, rfl⟩
  · cases h
    exact .inl ⟨rfl, rfl⟩
  · obtain ⟨-, -, -, -, hev, -⟩ := s.acceptByte_frame (w.setWidth 8)
    cases h
    exact .inl ⟨rfl, hev⟩
  · obtain ⟨u, hu, hcompleted⟩ := exec_pushl s (w.setWidth 8)
    rw [hu] at h
    cases h
    exact .inr ⟨_, rfl, hcompleted⟩

/-! ### Runs of presentations -/

/-- After a presentation's bytes without the last, the PUSHL of the last emits DECODE of all of them (R77, R78). -/
theorem State.Collected.completion_eq {s t : State} {bs : List Byte} (h : s.Collected bs t) (b : Byte) :
    t.completion b = decodeBytes (bs ++ [b]) := by
  have hcnt := h.counted
  have hlen : (bs ++ [b]).length = bs.length + 1 := by simp
  by_cases hb : bs.length = 33
  · have hframe : frameOf (t.acceptedFb b) = frameOfBytes (bs ++ [b]) := leSum_congr fun a (ha : a < 34) => by
      have hread := (h.acceptByte b).stored a (by omega)
      rw [State.acceptByte_fb] at hread
      rw [List.getD_eq_getElem?_getD, ← hread, Option.getD_some]
    rw [State.completion_of_eq (by omega), hframe]
    exact (if_pos (show (bs ++ [b]).length = 34 by omega)).symm
  · rw [State.completion_of_ne (by omega)]
    exact (if_neg (show ¬(bs ++ [b]).length = 34 by omega)).symm

/-- A word that accepts no byte and is no RST is IDLE (R58, R72). -/
theorem decodePort_idle_of_acceptedByte {w : PortWord} (hr : decodePort w ≠ .rst) (h : acceptedByte w = none) :
    decodePort w = .idle := by
  rcases decodePort_cases w with hd | hd | hd | hd
  · exact absurd hd hr
  · exact hd
  · simp [acceptedByte, hd] at h
  · simp [acceptedByte, hd] at h

/-- A word that accepts a byte with its last mark is a PUSHL (R58). -/
theorem acceptedByte_eq_last_iff {w : PortWord} {b : Byte} :
    acceptedByte w = some (b, true) ↔ decodePort w = .pushl b := by
  rcases decodePort_cases w with hd | hd | hd | hd <;> simp [acceptedByte, hd]

/-- The words that complete are those that accept a byte with its last mark (R74). -/
theorem completes_iff_acceptedByte (w : PortWord) :
    (decodePort w).completes = true ↔ ∃ b : Byte, acceptedByte w = some (b, true) := by
  rcases decodePort_cases w with hd | hd | hd | hd <;> simp [acceptedByte, hd, Instr.completes]

/-- The words of one presentation: those of the bytes before the last, the PUSHL of the last, IDLE steps (R78, H7). -/
theorem Presents.split {ws : List PortWord} {bs : List Byte} (h : Presents ws bs) :
    ∃ (front : List PortWord) (w : PortWord) (idles : List PortWord) (init : List Byte) (b : Byte),
      ws = front ++ w :: idles ∧ bs = init ++ [b] ∧ noRst front ∧ noPushl front ∧
      (front.filterMap acceptedByte).map Prod.fst = init ∧ decodePort w = .pushl b ∧
      ∀ v ∈ idles, decodePort v = .idle := by
  obtain ⟨hr, hne, hbytes⟩ := h
  obtain ⟨init, b, rfl⟩ := (List.eq_nil_or_concat bs).resolve_left hne
  rw [List.concat_eq_append, List.dropLast_concat, List.getLastD_concat] at hbytes
  obtain ⟨l₁, l₂, rfl, h₁, h₂⟩ := List.filterMap_eq_append_iff.1 hbytes
  obtain ⟨m₁, w, m₂, rfl, hm₁, hw, hm₂⟩ := List.filterMap_eq_cons_iff.1 h₂
  have hfront : (l₁ ++ m₁).filterMap acceptedByte = init.map (fun b => (b, false)) := by
    rw [List.filterMap_append, h₁, List.filterMap_eq_nil_iff.2 hm₁, List.append_nil]
  refine ⟨l₁ ++ m₁, w, m₂, init, b, by simp, List.concat_eq_append, fun v hv => hr v ?_, fun v hv => ?_, ?_,
    acceptedByte_eq_last_iff.1 hw, fun v hv => ?_⟩
  · rcases List.mem_append.1 hv with hv | hv <;> simp [hv]
  · refine Bool.eq_false_iff.2 fun hc => ?_
    obtain ⟨c, hlast⟩ := (completes_iff_acceptedByte v).1 hc
    have hmem := List.mem_filterMap.2 ⟨v, hv, hlast⟩
    rw [hfront] at hmem
    simp at hmem
  · rw [hfront, List.map_map]
    exact List.map_id init
  · exact decodePort_idle_of_acceptedByte (hr v (by simp [hv])) (List.filterMap_eq_nil_iff.1 hm₂ v hv)

/-- IDLE steps change nothing, so a run is the run of the other words (R72, H7). -/
theorem foldl_afterWord_filter_idle (ws : List PortWord) (s : State) :
    (ws.filter (fun w => decide (decodePort w ≠ .idle))).foldl afterWord s = ws.foldl afterWord s := by
  rw [List.foldl_filter]
  congr 1
  funext t w
  by_cases hd : decodePort w = .idle <;> simp [afterWord, hd]

/-- One presentation from `CNT` = 0 emits DECODE of its bytes, reports it, and is ready for the next (R78). -/
theorem foldl_afterWord_presents {s : State} {ws : List PortWord} {bs : List Byte} (hfb : Memory.wf s.fb)
    (hc : s.cnt.val = 0) (h : Presents ws bs) :
    (ws.foldl afterWord s).events = s.events ++ [decodeBytes bs] ∧ (ws.foldl afterWord s).cnt = 0 ∧
      (ws.foldl afterWord s).Reports (some (decodeBytes bs)) ∧ Memory.wf (ws.foldl afterWord s).fb := by
  obtain ⟨front, w, idles, init, b, rfl, rfl, hr, hl, hbytes, hw, hidle⟩ := h.split
  have hcoll := foldl_afterWord_collected hfb hc front hr hl
  rw [hbytes] at hcoll
  have hidles (t : State) : idles.foldl afterWord t = t := by
    rw [← foldl_afterWord_filter_idle, List.filter_eq_nil_iff.2 (by simpa using hidle), List.foldl_nil]
  rw [List.foldl_append, List.foldl_cons, hidles]
  generalize front.foldl afterWord s = t at hcoll ⊢
  have hexec := exec_word t w
  rcases exec_port_emits hexec with ⟨hn, -⟩ | ⟨b', hb, hdone⟩
  · rw [hw] at hn
    cases hn
  · obtain rfl : b = b' := by simpa [hw] using hb
    obtain ⟨hcnt, -, hemit, hrep, -, -⟩ := hdone
    obtain ⟨-, -, -, hev⟩ := hcoll.visible
    rw [hcoll.completion_eq] at hemit hrep
    exact ⟨by rw [hemit, hev], hcnt, hrep, exec_port_fb_wf hexec hcoll.fbCanonical⟩

/-- Presentations one after another from `CNT` = 0 emit the DECODE of each, in order (R78, R183). -/
theorem foldl_afterWord_presentations {s : State} {ps : List (List PortWord × List Byte)} (hfb : Memory.wf s.fb)
    (hc : s.cnt.val = 0) (h : ∀ p ∈ ps, Presents p.1 p.2) :
    ((ps.map Prod.fst).flatten.foldl afterWord s).events = s.events ++ ps.map (fun p => decodeBytes p.2) ∧
      ((ps.map Prod.fst).flatten.foldl afterWord s).cnt.val = 0 := by
  induction ps generalizing s with
  | nil => exact ⟨by simp, hc⟩
  | cons p ps ih =>
    obtain ⟨hev, hcnt, -, hfb'⟩ := foldl_afterWord_presents hfb hc (h p (by simp))
    obtain ⟨hev', hcnt'⟩ := ih hfb' (by rw [hcnt]; rfl) fun q hq => h q (by simp [hq])
    rw [List.map_cons, List.flatten_cons, List.foldl_append]
    exact ⟨by rw [hev', hev]; simp, hcnt'⟩

/-- Settles O46: the run is the fold of its words, and the flags and the record report the event. -/
theorem presentationEmitsItsDecode : Obligations.PresentationEmitsItsDecode := by
  intro s ws bs hfb hc h
  obtain ⟨hev, hcnt, hrep, -⟩ := foldl_afterWord_presents hfb hc h
  refine ⟨_, runWords_eq ws s, hev, by rw [State.withPending_cnt, hcnt]; rfl, fun hlen => ?_, fun hlen => ?_⟩
  · rw [show decodeBytes bs = .ok (unpack bs) from if_pos hlen] at hrep
    exact hrep
  · rw [show decodeBytes bs = .err .invalidLength from if_neg hlen] at hrep
    exact hrep

/-- Settles O47: RST leaves `CNT` = 0 and emits nothing; the presentations follow by induction. -/
theorem runEmitsTheDecodeOfEachPresentation : Obligations.RunEmitsTheDecodeOfEachPresentation := by
  intro s w ps hfb hw h
  have hrst : afterWord s w = (s.withCnt 0).flagsCleared.withRegs RegFile.noValue := by rw [afterWord, hw]
  obtain ⟨hev, hcnt⟩ := foldl_afterWord_presentations (s := afterWord s w) (by rw [hrst]; exact hfb)
    (by rw [hrst]; rfl) h
  refine ⟨_, runWords_eq _ s, ?_, ?_⟩
  · rw [List.foldl_cons, State.withPending_events, hev, hrst]
    rfl
  · rw [List.foldl_cons]
    simp [State.complete, Fin.ext_iff, hcnt]

/-! ### One operation at a time -/

/-- `out_stb` is 1 while a PUSHL is presented and while no other port word is (R22, R79). -/
theorem State.outStb_of_present {s : State} {w : PortWord} {rest : List HostAction}
    (h : s.pending = .present w :: rest) : s.outStb = (decodePort w).completes := by
  rw [outStb, h]

/-- Settles O14: the byte by `acceptedFb`, the counter on either side of 34, the rest by the frame of PUSH. -/
theorem pushEffect : Obligations.PushEffect := by
  refine ⟨fun w h10 h9 h8 => ?_, fun s b hfb =>
    ⟨fun rest => ?_, s.acceptByte b, exec_push s b, fun h => ?_, fun h => ?_, ?_⟩⟩
  · obtain ⟨-, -, -, hpush, -⟩ := everyPortWordSelectsOneRow w
    exact hpush h10 h9 h8
  · rw [State.outStb_of_present rfl, decodePort_push]
    rfl
  · rw [State.acceptByte_fb]
    refine ⟨?_, State.read_acceptedFb_of_le hfb h b⟩
    rw [State.acceptByte_of_le h, State.withCnt_cnt, State.cntSucc_val (by omega)]
  · rw [State.acceptByte_fb]
    exact ⟨by rw [State.acceptByte_of_gt h]; rfl, State.read_acceptedFb_of_gt h b⟩
  · obtain ⟨hx, hvalid, herr, hpending, hev, hsamples⟩ := s.acceptByte_frame b
    exact ⟨hx, hvalid, herr, hev, hsamples, hpending⟩

/-- Settles O15: what a completion stores, counts, emits and reports, by `exec_pushl`. -/
theorem pushlStoresAndCompletes : Obligations.PushlStoresAndCompletes := by
  refine ⟨fun w h10 h9 h8 => ?_, fun s b hfb => ⟨fun rest => ?_, ?_⟩⟩
  · obtain ⟨-, -, -, -, hpushl⟩ := everyPortWordSelectsOneRow w
    exact hpushl h10 h9 h8
  · rw [State.outStb_of_present rfl, decodePort_pushl]
    rfl
  · obtain ⟨t, ht, hcnt, hst, hev, hrep, hsamples, hpending⟩ := exec_pushl s b
    refine ⟨t, ht, by rw [hcnt]; rfl, fun h => ?_, fun h => ?_, fun h => ?_, fun h => ?_, hsamples, hpending⟩
    · rw [hst]
      exact State.read_acceptedFb_of_le hfb h b
    · rw [hst]
      exact State.read_acceptedFb_of_gt h b
    · rw [State.completion_of_eq h] at hev hrep
      obtain ⟨hvalid, herr, hx⟩ := hrep
      exact ⟨hvalid, herr, _, hx, hev⟩
    · rw [State.completion_of_ne h] at hev hrep
      obtain ⟨hvalid, herr, hx⟩ := hrep
      exact ⟨hvalid, herr, hx, hev⟩

/-- Settles O16: the registers hold the emitted record, each its row's value of `FB` with the last byte in place. -/
theorem okCompletionWritesTheRecord : Obligations.OkCompletionWritesTheRecord := by
  intro s b h
  obtain ⟨t, ht, -, hst, hev, hrep, -, -⟩ := exec_pushl s b
  rw [State.completion_of_eq h, ← hst] at hev hrep
  obtain ⟨hvalid, herr, hx⟩ := hrep
  have hrec (r : Reg) : t.x.value r = some ((unpackFrame (frameOf t.fb)).value r) := by
    rw [hx, RegFile.ofRecord_value]
  have unsigned {r : Reg} (hs : (rowOf r).signed = false) :
      t.x.value r = some (zext (extractBits (frameOf t.fb) (rowOf r).offset (rowOf r).width)) := by
    rw [hrec, unpackFrame_value, fieldValue_unsigned hs, zext]
  have signed {r : Reg} (hs : (rowOf r).signed = true) :
      t.x.value r = some (sext (rowOf r).width (extractBits (frameOf t.fb) (rowOf r).offset (rowOf r).width)) := by
    rw [hrec, unpackFrame_value, fieldValue_signed hs]
  refine ⟨t, ht, hvalid, herr, ?_, ⟨_, hev, hrec⟩, unsigned rfl, signed rfl, unsigned rfl, signed rfl, signed rfl,
    signed rfl, signed rfl, signed rfl, signed rfl, signed rfl, signed rfl, signed rfl, signed rfl, signed rfl,
    unsigned rfl⟩
  rw [hst, State.acceptedFb_of_le h.le, h, memWrite_one]

/-- Settles O19: only a PUSHL emits, and its event is the exception exactly off `CNT` = 33. -/
theorem invalidLengthExactlyOnWrongLength : Obligations.InvalidLengthExactlyOnWrongLength := by
  intro s t w rest hp hstep
  rw [step_action hp, perform_present] at hstep
  rcases exec_port_emits hstep with ⟨hn, hev⟩ | ⟨b, hd, -, -, hev, -⟩ <;>
    rw [State.withPending_events] at hev <;> rw [hev]
  · refine ⟨fun h => by simp at h, fun ⟨⟨b, hd⟩, _⟩ => ?_⟩
    rw [hd] at hn
    cases hn
  · by_cases hc : s.cnt.val = 33
    · rw [State.completion_of_eq (s := s.withPending rest) hc]
      simp [hc]
    · rw [State.completion_of_ne (s := s.withPending rest) hc]
      exact ⟨fun _ => ⟨⟨b, hd⟩, hc⟩, fun _ => rfl⟩

/-- Settles O21: a port word by `exec_port_emits`; a reading and no action emit nothing and raise no strobe. -/
theorem oneEventPerStrobe : Obligations.OneEventPerStrobe := by
  intro s t h
  rcases step_cases h with ⟨hp, rfl⟩ | ⟨w, rest, hp, hw⟩ | ⟨p, rest, n, hp, -, rfl⟩
  · rw [State.outStb, hp]
    exact ⟨nofun, fun _ => rfl⟩
  · rw [State.outStb_of_present hp]
    rcases exec_port_emits hw with ⟨hn, hev⟩ | ⟨b, hd, -, -, hev, -⟩
    · simpa [hn] using hev
    · simpa [hd, Instr.completes] using ⟨_, hev⟩
  · rw [State.outStb, hp]
    exact ⟨nofun, fun _ => rfl⟩

/-- The words of a run emit one event for each PUSHL among them (R185). -/
theorem foldl_afterWord_events (ws : List PortWord) (s : State) :
    ∃ es : List Event, (ws.foldl afterWord s).events = s.events ++ es ∧
      es.length = (ws.filter (fun w => (decodePort w).completes)).length := by
  induction ws generalizing s with
  | nil => exact ⟨[], by simp⟩
  | cons w ws ih =>
    obtain ⟨es, hes, hlen⟩ := ih (afterWord s w)
    rw [List.foldl_cons, hes]
    rcases exec_port_emits (exec_word s w) with ⟨hn, hev⟩ | ⟨b, hd, -, -, hev, -⟩
    · exact ⟨es, by rw [hev], by simpa [hn] using hlen⟩
    · exact ⟨s.completion b :: es, by rw [hev]; simp, by simpa [hd, Instr.completes] using hlen⟩

/-- Settles O50: the run is the fold of its words. -/
theorem asManyEventsAsLastMarks : Obligations.AsManyEventsAsLastMarks := by
  intro s ws
  obtain ⟨es, hev, hlen⟩ := foldl_afterWord_events ws s
  exact ⟨_, es, runWords_eq ws s, hev, hlen⟩

/-- Settles O52: both runs are folds, and the fold leaves IDLE steps out. -/
theorem idleStepsAreInvisible : Obligations.IdleStepsAreInvisible := by
  intro s ws
  rw [runWords_eq, runWords_eq, foldl_afterWord_filter_idle]

/-- Settles O6: the step is the word's effect, which does not touch what is pending. -/
theorem everyPortWordIsEnabled : Obligations.EveryPortWordIsEnabled := by
  intro s w rest hp
  refine ⟨afterWord (s.withPending rest) w, by rw [step_action hp, perform_present, exec_word], ?_⟩
  rw [afterWord_withPending, State.withPending_pending]

/-- Settles O12, by the decoder and the equation of RST. -/
theorem rstEffect : Obligations.RstEffect := by
  intro s w h
  obtain ⟨-, hrst, -⟩ := everyPortWordSelectsOneRow w
  exact ⟨hrst h, fun rest => by rw [State.outStb_of_present rfl, hrst h]; rfl, exec_rst s⟩

/-- Settles O13, by the decoder and the equation of IDLE. -/
theorem idleEffect : Obligations.IdleEffect := by
  intro s w h10 h9
  obtain ⟨-, -, hidle, -⟩ := everyPortWordSelectsOneRow w
  exact ⟨hidle h10 h9, fun rest => by rw [State.outStb_of_present rfl, hidle h10 h9]; rfl, exec_idle s⟩

end Sys2Proof.Machine
end

section
/-! PROOFS. The statements of 41_extract_unsigned.md: the byte-wise form and the locality of EXTRACT (R90, R91), the
three unsigned fields (R92, R93, R102) and the eight flag views (R94 to R101). -/
namespace Sys2Proof.Machine

/-! ### EXTRACT -/

/-- Settles O28: the bytes the field touches lie inside `FB`, and `extract_of_bytes` reads the field from them. -/
theorem extractEqualsItsBytewiseForm : Obligations.ExtractEqualsItsBytewiseForm := by
  intro m o w hw ho
  have hin : o / 8 + (o % 8 + w + 7) / 8 ≤ 34 := by omega
  refine ⟨rfl, _, memRead_eq m hin, ?_⟩
  rw [← extract_of_bytes m hin (by omega), Nat.div_add_mod]

/-- Settles O29, by the two laws of R91. -/
theorem extractDependsOnItsBitsOnly : Obligations.ExtractDependsOnItsBitsOnly :=
  fun F _ o w => ⟨extractBits_lt F o w, extractBits_congr⟩

/-! ### The unsigned fields -/

/-- The extraction of an unsigned row writes the field itself (R90, R91 b). -/
theorem exec_extract_unsigned {i : Instr} {row : FieldRow} (h : extractRow i = some row) (hs : row.signed = false)
    {s : State} {v : Nat} (hv : extractBits (frameOf s.fb) row.offset row.width = v) :
    exec i s = .next (s.withRegs (s.x.write row.reg v)) := by
  rw [exec_extract h, State.extractField_eq, fieldValue_unsigned hs, hv]

/-- The register bits above an unsigned field are 0 (R91 b). -/
theorem getLsbD_ofNat_above {v w k : Nat} (hv : v < 2 ^ w) (hk : w ≤ k) (n : Nat) :
    (BitVec.ofNat n v).getLsbD k = false := by
  rw [BitVec.getLsbD_ofNat, testBit_above hv hk, Bool.and_false]

/-- Settles O34: the three bytes by R31, the range and the zero bits by the width of the field. -/
theorem xTimeEffect : Obligations.XTimeEffect := by
  intro s v
  obtain ⟨-, (hv : extractBits (frameOf s.fb) 0 24 = v), -⟩ := frameIsLittleEndian s.fb
  have hlt : v < 2 ^ 24 := hv ▸ extractBits_lt _ 0 24
  exact ⟨rfl, hv, Nat.le_of_lt_succ hlt, fun _ hk => getLsbD_ofNat_above hlt hk 32,
    BitVec.ofInt_natCast 32 v ▸ exec_extract_unsigned (row := rowTime) rfl rfl hv⟩

/-- Settles O35: the field is the word of bytes 3 to 6 shifted down by 14, which drops byte 3 and the low six bits of
byte 4. -/
theorem xPresEffect : Obligations.XPresEffect := by
  intro s v
  have hword : v = leSum (fun j => Memory.read s.fb (3 + j)) 4 / 2 ^ 14 := by
    simp only [leSum, v, Nat.reduceAdd]
    omega
  have hlt : v < 2 ^ 18 := hword ▸ Nat.div_lt_of_lt_mul (leSum_lt _ 4)
  have hv : extractBits (frameOf s.fb) 38 18 = v := by
    rw [← Nat.mod_eq_of_lt hlt, hword]
    exact extract_of_bytes s.fb (a := 3) (s := 14) (by decide) (by decide)
  exact ⟨rfl, hv, Nat.le_of_lt_succ hlt, fun _ hk => getLsbD_ofNat_above hlt hk 32,
    ⟨_, memRead_eq s.fb (by decide), hword⟩,
    BitVec.ofInt_natCast 32 v ▸ exec_extract_unsigned (row := rowPres) rfl rfl hv⟩

/-- Settles O36: the field is byte 33 whole, and the register has its width. -/
theorem xFlagsEffect : Obligations.XFlagsEffect := by
  intro s
  have hv : extractBits (frameOf s.fb) 264 8 = (Memory.read s.fb 33).toNat := by
    refine (extract_of_bytes s.fb (a := 33) (n := 1) (s := 0) (by decide) (by decide)).trans ?_
    simpa [leSum] using (Memory.read s.fb 33).isLt
  have hexec : exec .xFlags s =
      .next { s with x := { s.x with flags := some (BitVec.ofInt 8 (Memory.read s.fb 33).toNat) } } :=
    exec_extract_unsigned (row := rowFlags) rfl rfl hv
  rw [BitVec.ofInt_natCast, BitVec.ofNat_toNat, BitVec.setWidth_eq] at hexec
  exact ⟨rfl, hv, hexec⟩

/-! ### The flag views -/

/-- The operation of a flag view on a valid record is the reading of the condition's bit of x[14] (R94 to R101). -/
theorem exec_viewOp_of_valid {s : State} {b : BitVec 8} (hv : s.outValid = true) (hb : s.x.flags = some b) (f : Flag) :
    exec (viewOp f) s = .next (s.noteSample ⟨.flag f, (b.getLsbD (config.flagBit f)).toNat⟩) := by
  rw [exec_viewOp, State.samplePort_flag hv hb]
  rfl

/-- Bit k of an unpacked flags byte is frame bit 264 + k (R55, R102). -/
theorem unpackFrame_flags_getLsbD (F : Nat) {k : Nat} (hk : k < 8) :
    (unpackFrame F).flags.getLsbD k = F.testBit (264 + k) := by
  have hflags : (unpackFrame F).flags = BitVec.ofInt 8 (fieldValue rowFlags F) := rfl
  have hfield : fieldValue rowFlags F = (extractBits F 264 8 : Int) := fieldValue_unsigned rfl F
  rw [hflags, hfield, BitVec.ofInt_natCast, BitVec.getLsbD_ofNat, extractBits_testBit, decide_eq_true hk,
    Bool.true_and, Bool.true_and, Nat.add_comm]

/-- Settles O40: each view by `exec_viewOp_of_valid` at its bit number of `FLAG_ORDER`, the frame bits by
`unpackFrame_flags_getLsbD`. -/
theorem flagViewsEffect : Obligations.FlagViewsEffect := by
  refine ⟨fun s b hv hb => ?_, fun F k hk => unpackFrame_flags_getLsbD F hk⟩
  have view := exec_viewOp_of_valid hv hb
  exact ⟨view .armed, view .gpsFix, view .altitudeHold, view .batteryLow, view .sensorError, view .recoveryMode,
    view .dataLogging, view .telemetryActive⟩

end Sys2Proof.Machine
end

section
/-! PROOFS. The statements of 42_extract_signed.md: sign extension by the field's top bit (R110) and its laws (R123),
and the twelve signed fields (R111 to R122). -/
namespace Sys2Proof.Machine

/-! ### Sign extension -/

/-- Below the sign bit a field is its own value (R110). -/
theorem sext_of_lt {n v : Nat} (h : v < 2 ^ (n - 1)) : sext n v = v := if_pos h

/-- From the sign bit on a field loses `2^N` (R110). -/
theorem sext_of_le {n v : Nat} (h : 2 ^ (n - 1) ≤ v) : sext n v = (v : Int) - 2 ^ n := if_neg h.not_gt

/-- Sign extension with its two powers as numbers (R110). -/
theorem sext_eq_ite {n v half : Nat} {full : Int} (hh : 2 ^ (n - 1) = half) (hf : (2 : Int) ^ n = full) :
    sext n v = if v < half then (v : Int) else (v : Int) - full := by
  rw [← hh, ← hf, sext]

/-- The top bit of an N-bit field is set exactly from `2^(N-1)` on (R110). -/
theorem testBit_pred_iff {n v : Nat} (hn : 1 ≤ n) (hv : v < 2 ^ n) : v.testBit (n - 1) = true ↔ 2 ^ (n - 1) ≤ v :=
  ⟨Nat.ge_two_pow_of_testBit, fun h =>
    Nat.testBit_of_two_pow_le_and_two_pow_add_one_gt h (by rwa [Nat.sub_add_cancel hn])⟩

theorem testBit_pred_eq_false_iff {n v : Nat} (hn : 1 ≤ n) (hv : v < 2 ^ n) :
    v.testBit (n - 1) = false ↔ v < 2 ^ (n - 1) := by
  rw [← Bool.not_eq_true, testBit_pred_iff hn hv, Nat.not_le]

/-- Settles O31: the test of R110 by `testBit_pred_iff`; the signed rows by their widths. -/
theorem signExtensionTestsTheFieldsTopBit : Obligations.SignExtensionTestsTheFieldsTopBit := by
  have hwidths : ∀ row ∈ layoutV7, row.signed = true → row.width = 14 ∨ row.width = 16 ∨ row.width = 30 := by decide
  refine ⟨fun n v hn hv => ⟨(testBit_pred_eq_false_iff hn hv).symm, fun h => ?_, fun h => ?_⟩,
    fun row hrow hs => ⟨hwidths row hrow hs, fieldValue_signed hs⟩⟩
  · exact sext_of_lt ((testBit_pred_eq_false_iff hn hv).1 h)
  · exact sext_of_le ((testBit_pred_iff hn hv).1 h)

/-- Different fields extend to different values (R123 b). -/
theorem sext_injective {n u v : Nat} (hu : u < 2 ^ n) (hv : v < 2 ^ n) (h : sext n u = sext n v) : u = v := by
  have : (u : Int) = v := by rw [← sext_emod hu, h, sext_emod hv]
  exact_mod_cast this

/-- Every value of the signed range is the extension of its two's-complement pattern (R123 b). -/
theorem sext_ofInt {n : Nat} (hn : 1 ≤ n) {z : Int} (h0 : -(2 ^ (n - 1) : Int) ≤ z) (h1 : z < 2 ^ (n - 1)) :
    sext n (BitVec.ofInt n z).toNat = z := by
  rw [sext_toNat hn, toInt_ofInt_of_range hn h0 h1]

/-- The least value is the field with the top bit alone (R123 e). -/
theorem sext_signBit {n : Nat} (hn : 1 ≤ n) : sext n (2 ^ (n - 1)) = -(2 ^ (n - 1) : Int) := by
  have hp : (2 : Int) ^ n = 2 * 2 ^ (n - 1) := by exact_mod_cast two_pow_pred hn
  rw [sext_of_le le_rfl, hp]
  push_cast
  ring

/-- The field of all ones is -1 (R123 e). -/
theorem sext_allOnes {n : Nat} (hn : 1 ≤ n) : sext n (2 ^ n - 1) = -1 := by
  have hp := two_pow_pred hn
  have h1 : 1 ≤ 2 ^ (n - 1) := Nat.one_le_two_pow
  rw [sext_of_le (by omega), Nat.cast_sub (by omega)]
  push_cast
  ring

/-- The greatest value is the field of all ones below the top bit (R123 e). -/
theorem sext_max (n : Nat) : sext n (2 ^ (n - 1) - 1) = (2 ^ (n - 1) : Int) - 1 := by
  have h1 : 1 ≤ 2 ^ (n - 1) := Nat.one_le_two_pow
  rw [sext_of_lt (by omega), Nat.cast_sub h1]
  push_cast
  rfl

/-- Settles O32: each law of R123 by its lemma; the only field of a value in range is the value's pattern. -/
theorem signExtensionLaws : Obligations.SignExtensionLaws := by
  intro n hn
  refine ⟨fun v hv => ?_, fun v => sext_emod, fun z h0 h1 => ?_, fun m v k _ hv hk => sext_getLsbD hn hv hk,
    sext_of_lt (Nat.two_pow_pos _), sext_signBit hn, sext_allOnes hn, fun _ => sext_max n⟩
  · obtain ⟨h0, h1⟩ := sext_range hn hv
    exact ⟨h0, Int.le_sub_one_of_lt h1⟩
  · have hz : sext n (BitVec.ofInt n z).toNat = z := sext_ofInt hn h0 (Int.lt_of_le_sub_one h1)
    have hlt := (BitVec.ofInt n z).isLt
    exact ⟨_, ⟨hlt, hz⟩, fun u hu hsext => sext_injective hu hlt (hsext.trans hz.symm)⟩

/-! ### A signed field in its register -/

/-- The extraction of a signed row writes the sign extension of the field (R90, R110). -/
theorem exec_extract_signed {i : Instr} {row : FieldRow} (h : extractRow i = some row) (hs : row.signed = true)
    {s : State} {v : Nat} (hv : extractBits (frameOf s.fb) row.offset row.width = v) :
    exec i s = .next (s.withRegs (s.x.write row.reg (sext row.width v))) := by
  rw [exec_extract h, State.extractField_eq, fieldValue_signed hs, hv]

/-- A register at least as wide as a signed field holds the field's value (R123 c). -/
theorem toInt_ofInt_sext {n m v : Nat} (hn : 1 ≤ n) (hm : n ≤ m) (hv : v < 2 ^ n) :
    (BitVec.ofInt m (sext n v)).toInt = sext n v := by
  obtain ⟨h0, h1⟩ := sext_range hn hv
  have hle : (2 : Int) ^ (n - 1) ≤ 2 ^ (m - 1) := pow_le_pow_right₀ (by decide) (by omega)
  exact toInt_ofInt_of_range (by omega) (by omega) (by omega)

/-- The register bit at the field's top bit is the field's (R123 c). -/
theorem sext_getLsbD_pred {n m v : Nat} (hn : 1 ≤ n) (hv : v < 2 ^ n) (hm : n - 1 < m) :
    (BitVec.ofInt m (sext n v)).getLsbD (n - 1) = v.testBit (n - 1) := by
  rw [sext_getLsbD hn hv hm, if_pos (by omega)]

/-- The register bits above the field equal the one at its top bit (R123 c). -/
theorem sext_getLsbD_above {n m v k : Nat} (hn : 1 ≤ n) (hv : v < 2 ^ n) (hk : n ≤ k) (hm : k < m) :
    (BitVec.ofInt m (sext n v)).getLsbD k = (BitVec.ofInt m (sext n v)).getLsbD (n - 1) := by
  rw [sext_getLsbD_pred hn hv (by omega), sext_getLsbD hn hv hm, if_neg hk.not_gt]

/-- The top bit of a field that ends with bit i of byte a (R31, R90). -/
theorem extractBits_frameOf_testBit_pred (m : Memory) {o n a i : Nat} (hn : 1 ≤ n) (ha : a < 34) (hi : i < 8)
    (h : o + n = 8 * a + i + 1) : (extractBits (frameOf m) o n).testBit (n - 1) = (Memory.read m a).getLsbD i := by
  rw [extractBits_testBit, decide_eq_true (by omega), Bool.true_and, frameOf_testBit m (by omega),
    show (n - 1 + o) / 8 = a by omega, show (n - 1 + o) % 8 = i by omega]

/-! ### The twelve signed fields -/

/-- Settles O37: the field is bytes 3 and 4 without the top two bits, and ends with bit 5 of byte 4. -/
theorem xTempEffect : Obligations.XTempEffect := by
  intro s v z
  have hv : extractBits (frameOf s.fb) 24 14 = v := by
    refine (extract_of_bytes s.fb (a := 3) (n := 2) (s := 0) (by decide) (by decide)).trans ?_
    have := (Memory.read s.fb 3).isLt
    simp only [leSum, v, Nat.reduceAdd]
    omega
  have hlt : v < 2 ^ 14 := hv ▸ extractBits_lt _ 24 14
  have hz : z = sext 14 v := (sext_eq_ite (by norm_num) (by norm_num)).symm
  clear_value z
  subst hz
  obtain ⟨h0, h1⟩ := sext_range (by decide) hlt
  have hbit : v.testBit 13 = (Memory.read s.fb 4).getLsbD 5 :=
    hv ▸ extractBits_frameOf_testBit_pred s.fb (by decide) (by decide) (by decide) rfl
  exact ⟨rfl, hv, Nat.le_of_lt_succ hlt, h0, Int.le_of_lt_add_one h1, toInt_ofInt_sext (by decide) (by decide) hlt,
    sext_getLsbD_above (by decide) hlt (by decide) (by decide),
    sext_getLsbD_above (by decide) hlt (by decide) (by decide),
    (sext_getLsbD_pred (by decide) hlt (by decide)).trans hbit, exec_extract_signed (row := rowTemp) rfl rfl hv⟩

/-- A 16-bit field that starts on a byte is its two bytes, low byte first (R31, R90). -/
theorem extract_word (m : Memory) {a : Nat} (h : a + 2 ≤ 34) :
    extractBits (frameOf m) (8 * a) 16 = (Memory.read m a).toNat + 256 * (Memory.read m (a + 1)).toNat := by
  refine (extract_of_bytes m (s := 0) h (by decide)).trans ?_
  have := (Memory.read m a).isLt
  have := (Memory.read m (a + 1)).isLt
  simp only [leSum, Nat.add_zero]
  omega

/-- Two bytes put together are a number of two digits of base 256. -/
theorem toNat_append_byte (hi lo : Byte) : (hi ++ lo).toNat = lo.toNat + 256 * hi.toNat := by
  rw [BitVec.toNat_append, ← Nat.shiftLeft_add_eq_or_of_lt lo.isLt, Nat.shiftLeft_eq]
  omega

/-- As a signed integer, two bytes of `FB` are the sign extension of the field they are (R112 to R120). -/
theorem toInt_word (m : Memory) {a : Nat} (h : a + 2 ≤ 34) :
    (Memory.read m (a + 1) ++ Memory.read m a).toInt = sext 16 (extractBits (frameOf m) (8 * a) 16) := by
  rw [extract_word m h, ← toNat_append_byte]
  exact (sext_toNat (by decide) _).symm

/-- The extraction of a signed 16-bit row at byte a writes its two bytes, low byte first (R112 to R120). -/
theorem exec_extract_word {i : Instr} (r : Reg) (a : Nat) {e : Option Int}
    (h : extractRow i = some ⟨r, 8 * a, 16, true, 16, e⟩) (ha : a + 2 ≤ 34) (s : State) :
    exec i s = .next (s.withRegs (s.x.write r (Memory.read s.fb (a + 1) ++ Memory.read s.fb a).toInt)) := by
  rw [exec_extract_signed h rfl rfl, toInt_word s.fb ha]

/-- Settles O38: each field by `extract_word` and `toInt_word`, each operation by `exec_extract_word`. -/
theorem sensorWordsEffect : Obligations.SensorWordsEffect := by
  intro s w
  have hw : ∀ a, BitVec.ofInt 16 (w a).toInt = w a := fun a => BitVec.ofInt_toInt
  refine ⟨rfl, fun p hp => ?_, ?_⟩
  · obtain ⟨ho, ha⟩ : p.2 = 8 * p.1 ∧ p.1 + 2 ≤ 34 := by revert p; decide
    rw [ho]
    exact ⟨extract_word s.fb ha, toInt_word s.fb ha⟩
  · rw [← hw 7, ← hw 9, ← hw 11, ← hw 13, ← hw 15, ← hw 17, ← hw 19, ← hw 21, ← hw 23]
    exact ⟨exec_extract_word .magX 7 rfl (by decide) s, exec_extract_word .magY 9 rfl (by decide) s,
      exec_extract_word .magZ 11 rfl (by decide) s, exec_extract_word .accX 13 rfl (by decide) s,
      exec_extract_word .accY 15 rfl (by decide) s, exec_extract_word .accZ 17 rfl (by decide) s,
      exec_extract_word .gyrX 19 rfl (by decide) s, exec_extract_word .gyrY 21 rfl (by decide) s,
      exec_extract_word .gyrZ 23 rfl (by decide) s⟩

/-- A 30-bit field that starts on a byte, from its four bytes (R54, R121, R122). -/
theorem extract_coordinate_bytes (m : Memory) {a : Nat} (h : a + 4 ≤ 34) :
    extractBits (frameOf m) (8 * a) 30 = ((Memory.read m a).toNat + 2 ^ 8 * (Memory.read m (a + 1)).toNat
      + 2 ^ 16 * (Memory.read m (a + 2)).toNat + 2 ^ 24 * (Memory.read m (a + 3)).toNat) % 2 ^ 30 := by
  obtain ⟨W, hW, hfield⟩ := extract_coordinate m h
  obtain rfl := Option.some.inj ((memRead_eq m h).symm.trans hW)
  rw [hfield]
  simp only [leSum, Nat.add_zero]
  omega

/-- Settles O39: the field is the word of four bytes without the top two bits, and ends with bit 5 of the fourth. -/
theorem coordinatesEffect : Obligations.CoordinatesEffect := by
  intro s v z
  have hz : z = fun a => sext 30 (v a) := funext fun a => (sext_eq_ite (by norm_num) (by norm_num)).symm
  clear_value z
  subst hz
  have hv : ∀ {a}, a + 4 ≤ 34 → extractBits (frameOf s.fb) (8 * a) 30 = v a := extract_coordinate_bytes s.fb
  refine ⟨fun a ha => ?_, rfl, rfl, hv (a := 25) (by decide), hv (a := 29) (by decide),
    exec_extract_signed (row := rowLat) rfl rfl (hv (a := 25) (by decide)),
    exec_extract_signed (row := rowLon) rfl rfl (hv (a := 29) (by decide))⟩
  have ha4 : a + 4 ≤ 34 := by revert a; decide
  have hlt : v a < 2 ^ 30 := Nat.mod_lt _ (by decide)
  obtain ⟨h0, h1⟩ := sext_range (by decide) hlt
  have hbit : (v a).testBit 29 = (Memory.read s.fb (a + 3)).getLsbD 5 :=
    hv ha4 ▸ extractBits_frameOf_testBit_pred s.fb (by decide) (by omega) (by decide) (by omega)
  exact ⟨h0, Int.le_of_lt_add_one h1, toInt_ofInt_sext (by decide) (by decide) hlt,
    sext_getLsbD_above (by decide) hlt (by decide) (by decide),
    sext_getLsbD_above (by decide) hlt (by decide) (by decide),
    (sext_getLsbD_pred (by decide) hlt (by decide)).trans hbit⟩

end Sys2Proof.Machine
end

section
/-! PROOFS. The statements of 43_scaling.md: what each register denotes (R130), that the denoted value determines the
raw value (R139), and how close the binary64 view is to it (R138). -/
namespace Sys2Proof.Machine

/-! ### The denoted value -/

/-- `VAL(i) = x[i] * 10^e(i)`, with the exponent of the register's row (R130). -/
theorem denoted_of_exp10 {r : Reg} {e : Int} (h : (rowOf r).exp10 = some e) (v : Int) :
    denoted r v = some ((v : Rat) * (10 : Rat) ^ e) := by
  rw [denoted, config_row, h, Option.map_some]

/-- With exponent 0 the register is its own value (R131, R133, R136, R137). -/
theorem denoted_of_exp10_zero {r : Reg} (h : (rowOf r).exp10 = some 0) (v : Int) : denoted r v = some (v : Rat) := by
  rw [denoted_of_exp10 h, zpow_zero, mul_one]

/-- The registers with a divisor are those of a negative exponent, and the divisor is `10^(-e)` (R138). -/
theorem divisorOf_eq_some_iff {r : Reg} {d : Nat} :
    divisorOf r = some d ↔ ∃ e, (rowOf r).exp10 = some e ∧ e < 0 ∧ d = 10 ^ (-e).toNat := by
  rw [divisorOf, config_row]
  cases (rowOf r).exp10 with
  | none => simp
  | some e => simp [eq_comm]

/-- A register with a divisor denotes the quotient (R132, R134, R135). -/
theorem denoted_of_divisorOf {r : Reg} {d : Nat} (h : divisorOf r = some d) (v : Int) :
    denoted r v = some ((v : Rat) / d) := by
  obtain ⟨e, he, hneg, rfl⟩ := divisorOf_eq_some_iff.1 h
  have hpow : (10 : Rat) ^ e = (((10 ^ (-e).toNat : Nat) : Rat))⁻¹ := by
    rw [Nat.cast_pow, Nat.cast_ofNat, ← zpow_natCast, ← zpow_neg, Int.toNat_of_nonneg (by omega), neg_neg]
  rw [denoted_of_exp10 he, hpow, div_eq_mul_inv]

/-- Settles O54: three registers have a divisor of their own, the flags no exponent, and the others exponent 0. -/
theorem denotedValues : Obligations.DenotedValues := by
  intro v
  refine ⟨denoted_of_exp10_zero rfl v, denoted_of_divisorOf (d := 100) rfl v, denoted_of_exp10_zero rfl v,
    fun r hr => denoted_of_exp10_zero ?_ v, fun r hr => denoted_of_divisorOf (d := 10) ?_ v,
    fun r hr => denoted_of_divisorOf (d := 10000000) ?_ v, rfl⟩
  all_goals
    revert r
    decide

/-- Settles O55: the scale is a positive power of ten. -/
theorem denotedValueDeterminesTheRawValue : Obligations.DenotedValueDeterminesTheRawValue := by
  intro r e he v u
  have hpos : (0 : Rat) < 10 ^ e := zpow_pos (by norm_num) e
  refine ⟨_, _, denoted_of_exp10 he v, denoted_of_exp10 he u, ?_, ?_, ?_⟩
  · rw [mul_lt_mul_iff_left₀ hpos, Int.cast_lt]
  · rw [mul_eq_zero, or_iff_left hpos.ne', Int.cast_eq_zero]
  · rw [zpow_neg, mul_inv_cancel_right₀ hpos.ne']

/-! ### The numbers that ratios and doubles stand for -/

/-- The number a ratio stands for. -/
def Ratio.value (q : Ratio) : Rat := (q.num : Rat) / q.den

/-- The number a mantissa and an exponent stand for. -/
def Double.value (x : Double) : Rat := (x.mant : Rat) * (2 : Rat) ^ x.exp

/-- A power of two of either sign as a quotient of two powers with natural exponents. -/
theorem two_pow_toNat_div (k : Int) : (2 : Rat) ^ k.toNat / (2 : Rat) ^ (-k).toNat = (2 : Rat) ^ k := by
  rw [← zpow_natCast, ← zpow_natCast, ← zpow_sub₀ two_ne_zero]
  congr 1
  omega

theorem Ratio.scale_value (q : Ratio) (k : Int) : (q.scale k).value = q.value * (2 : Rat) ^ k := by
  simp only [scale, value, Nat.cast_mul, Nat.cast_pow, Nat.cast_ofNat]
  rw [mul_div_mul_comm, two_pow_toNat_div]

theorem Double.ratio_value (x : Double) : x.ratio.value = x.value := by
  simp only [ratio, Ratio.value, value, Nat.cast_mul, Nat.cast_pow, Nat.cast_ofNat]
  rw [mul_div_assoc, two_pow_toNat_div]

theorem Ratio.scale_den_pos {q : Ratio} (hd : 0 < q.den) (k : Int) : 0 < (q.scale k).den :=
  Nat.mul_pos hd (Nat.two_pow_pos _)

theorem Ratio.num_lt_den_iff {q : Ratio} (hd : 0 < q.den) : q.num < q.den ↔ q.value < 1 := by
  rw [value, div_lt_one (Nat.cast_pos.2 hd), Nat.cast_lt]

/-! ### The power of two at the head of a ratio -/

/-- The head of a quotient is the difference of the two heads, or one less. -/
theorem Ratio.value_between {q : Ratio} (hn : 0 < q.num) (hd : 0 < q.den) :
    (2 : Rat) ^ ((q.num.log2 : Int) - q.den.log2 - 1) ≤ q.value ∧
      q.value < (2 : Rat) ^ ((q.num.log2 : Int) - q.den.log2 + 1) := by
  have hd' : (0 : Rat) < q.den := Nat.cast_pos.2 hd
  have head_le {n : Nat} (h : 0 < n) : (2 : Rat) ^ (n.log2 : Int) ≤ n := by
    exact_mod_cast Nat.log2_self_le h.ne'
  have lt_head (n : Nat) : (n : Rat) < (2 : Rat) ^ ((n.log2 : Int) + 1) := by
    exact_mod_cast Nat.lt_log2_self
  constructor
  · rw [value, le_div_iff₀ hd']
    calc (2 : Rat) ^ ((q.num.log2 : Int) - q.den.log2 - 1) * q.den
        ≤ 2 ^ ((q.num.log2 : Int) - q.den.log2 - 1) * 2 ^ ((q.den.log2 : Int) + 1) := by gcongr; exact (lt_head _).le
      _ = 2 ^ (q.num.log2 : Int) := by rw [← zpow_add₀ two_ne_zero]; congr 1; omega
      _ ≤ q.num := head_le hn
  · rw [value, div_lt_iff₀ hd']
    calc (q.num : Rat) < 2 ^ ((q.num.log2 : Int) + 1) := lt_head _
      _ = 2 ^ ((q.num.log2 : Int) - q.den.log2 + 1) * 2 ^ (q.den.log2 : Int) := by
        rw [← zpow_add₀ two_ne_zero]; congr 1; omega
      _ ≤ 2 ^ ((q.num.log2 : Int) - q.den.log2 + 1) * q.den := by gcongr; exact head_le hd

theorem Ratio.log2_spec {q : Ratio} (hn : 0 < q.num) (hd : 0 < q.den) :
    (2 : Rat) ^ q.log2 ≤ q.value ∧ q.value < (2 : Rat) ^ (q.log2 + 1) := by
  obtain ⟨hlow, hhigh⟩ := value_between hn hd
  simp only [log2, num_lt_den_iff (scale_den_pos hd _), scale_value, zpow_neg,
    mul_inv_lt_iff₀ (zpow_pos (two_pos (α := Rat)) _), one_mul]
  split
  next h => exact ⟨hlow, by rwa [sub_add_cancel]⟩
  next h => exact ⟨not_lt.1 h, hhigh⟩

/-! ### Rounding -/

/-- Rounding to an integer moves a quotient by at most one half. -/
theorem divRoundEven_close (n : Nat) {d : Nat} (hd : 0 < d) : |(divRoundEven n d : Rat) - n / d| ≤ 1 / 2 := by
  have hnat : 2 * n ≤ 2 * (d * divRoundEven n d) + d ∧ 2 * (d * divRoundEven n d) ≤ 2 * n + d := by
    have hdiv := Nat.div_add_mod n d
    have hmod := Nat.mod_lt n hd
    have hsucc := Nat.mul_add_one d (n / d)
    simp only [divRoundEven]
    split_ifs <;> omega
  have h1 : (2 : Rat) * n ≤ 2 * (d * divRoundEven n d) + d := by exact_mod_cast hnat.1
  have h2 : (2 : Rat) * (d * divRoundEven n d) ≤ 2 * n + d := by exact_mod_cast hnat.2
  have hd' : (0 : Rat) < d := Nat.cast_pos.2 hd
  rw [abs_le, neg_le_sub_iff_le_add, sub_le_iff_le_add, div_le_iff₀ hd', ← sub_le_iff_le_add', le_div_iff₀ hd']
  constructor <;> linarith

/-- `x` has 53 significant bits and lies within `ε` relative of `a`. -/
structure Double.Within (x : Double) (ε a : Rat) : Prop where
  low : 2 ^ 52 ≤ x.mant
  high : x.mant < 2 ^ 53
  close : |x.value - a| ≤ ε * a


theorem Double.Within.mono {x : Double} {ε δ a : Rat} (h : x.Within ε a) (hε : ε ≤ δ) (ha : 0 ≤ a) : x.Within δ a :=
  ⟨h.low, h.high, h.close.trans (mul_le_mul_of_nonneg_right hε ha)⟩

/-- Errors add up along two approximations: of `b` by `x` and of `a` by `b`. -/
theorem Double.Within.trans {x : Double} {ε δ a b : Rat} (h : x.Within ε b) (hε : 0 ≤ ε) (hb : |b - a| ≤ δ * a) :
    x.Within (ε * (1 + δ) + δ) a := by
  refine ⟨h.low, h.high, ?_⟩
  have hle : b ≤ (1 + δ) * a := by linarith [(abs_le.1 hb).2]
  calc |x.value - a| ≤ |x.value - b| + |b - a| := abs_sub_le ..
    _ ≤ ε * b + δ * a := add_le_add h.close hb
    _ ≤ ε * ((1 + δ) * a) + δ * a := by gcongr
    _ = (ε * (1 + δ) + δ) * a := by ring

/-- A quotient scaled to 53 bits and rounded to an integer is within half a unit in the last place; an integer that
rounds up to `2^53` takes the next exponent. -/
theorem Double.within_of_integer {m : Nat} {e : Int} {a : Rat} (hm : |(m : Rat) - a * 2 ^ (-e)| ≤ 1 / 2)
    (hlow : (2 : Rat) ^ (e + 52) ≤ a) (hhigh : a < (2 : Rat) ^ (e + 53)) :
    (if m = 2 ^ 53 then ⟨2 ^ 52, e + 1⟩ else ⟨m, e⟩ : Double).Within (2 ^ (-53 : Int)) a := by
  have he : (0 : Rat) < 2 ^ e := zpow_pos two_pos e
  have hpow (k : Int) : (2 : Rat) ^ (e + k) * 2 ^ (-e) = 2 ^ k := by
    rw [← zpow_add₀ two_ne_zero, add_neg_cancel_comm]
  have hlow' : (2 : Rat) ^ 52 ≤ a * 2 ^ (-e) := (hpow 52).ge.trans (by gcongr)
  have hhigh' : a * 2 ^ (-e) < (2 : Rat) ^ 53 := (mul_lt_mul_of_pos_right hhigh (zpow_pos two_pos _)).trans_eq (hpow 53)
  obtain ⟨hm0, hm1⟩ := abs_le.1 hm
  have hmlow : 2 ^ 52 ≤ m := by
    have : ((2 ^ 52 : Nat) : Rat) < (m + 1 : Nat) := by push_cast; linarith
    exact Nat.lt_succ_iff.1 (Nat.cast_lt.1 this)
  have hmhigh : m ≤ 2 ^ 53 := by
    have : (m : Rat) < ((2 ^ 53 + 1 : Nat) : Rat) := by push_cast; linarith
    exact Nat.lt_succ_iff.1 (Nat.cast_lt.1 this)
  have hclose : |(m : Rat) * 2 ^ e - a| ≤ 2 ^ (-53 : Int) * a := by
    calc |(m : Rat) * 2 ^ e - a| = |(m : Rat) - a * 2 ^ (-e)| * 2 ^ e := by
          rw [← abs_of_pos he, ← abs_mul, abs_of_pos he, sub_mul, zpow_neg, inv_mul_cancel_right₀ he.ne']
      _ ≤ 1 / 2 * 2 ^ e := by gcongr
      _ = 2 ^ (-53 : Int) * 2 ^ (e + 52) := by rw [zpow_add₀ two_ne_zero]; ring
      _ ≤ 2 ^ (-53 : Int) * a := by gcongr
  split
  next h =>
    refine ⟨le_rfl, by norm_num, ?_⟩
    rwa [value, show ((2 ^ 52 : Nat) : Rat) * 2 ^ (e + 1) = (m : Rat) * 2 ^ e by
      rw [h, zpow_add_one₀ two_ne_zero]; push_cast; ring]
  next h => exact ⟨hmlow, lt_of_le_of_ne hmhigh h, hclose⟩

/-- One rounding of a positive ratio is within half a unit in the last place (R138). -/
theorem Ratio.round53_within {q : Ratio} (hn : 0 < q.num) (hd : 0 < q.den) :
    q.round53.Within (2 ^ (-53 : Int)) q.value := by
  obtain ⟨hlow, hhigh⟩ := log2_spec hn hd
  have hclose := divRoundEven_close (q.scale (-(q.log2 - 52))).num (scale_den_pos hd (-(q.log2 - 52)))
  rw [← value, scale_value] at hclose
  exact Double.within_of_integer hclose (by rwa [sub_add_cancel]) (by rwa [show q.log2 - 52 + 53 = q.log2 + 1 by ring])

/-- Division rounds once (R138). -/
theorem magnitude64_division_within {n d : Nat} (hn : 0 < n) (hd : 0 < d) :
    (magnitude64 .division n d).Within (2 ^ (-53 : Int)) ((n : Rat) / d) :=
  Ratio.round53_within (q := ⟨n, d⟩) hn hd

/-- Multiplication rounds twice: the reciprocal, then the product with it (R138). -/
theorem magnitude64_multiplication_within {n d : Nat} (hn : 0 < n) (hd : 0 < d) :
    (magnitude64 .multiplication n d).Within (2 ^ (-51 : Int)) ((n : Rat) / d) := by
  obtain ⟨hlow, -, hclose⟩ := Ratio.round53_within (q := ⟨1, d⟩) one_pos hd
  set c := Ratio.round53 ⟨1, d⟩
  have hcn : 0 < c.ratio.num := Nat.mul_pos (by omega) (Nat.two_pow_pos _)
  have hround := Ratio.round53_within (q := ⟨n * c.ratio.num, c.ratio.den⟩) (Nat.mul_pos hn hcn) (Nat.two_pow_pos _)
  have hproduct : (⟨n * c.ratio.num, c.ratio.den⟩ : Ratio).value = n * c.value := by
    rw [← Double.ratio_value, Ratio.value, Ratio.value, Nat.cast_mul, mul_div_assoc]
  rw [hproduct] at hround
  have hb : |n * c.value - (n : Rat) / d| ≤ 2 ^ (-53 : Int) * (n / d) := by
    calc |n * c.value - (n : Rat) / d| = n * |c.value - (⟨1, d⟩ : Ratio).value| := by
          rw [← Nat.abs_cast n, ← abs_mul, Nat.abs_cast, mul_sub, Ratio.value, Nat.cast_one, mul_one_div]
      _ ≤ n * (2 ^ (-53 : Int) * (⟨1, d⟩ : Ratio).value) := by gcongr
      _ = 2 ^ (-53 : Int) * (n / d) := by rw [Ratio.value, Nat.cast_one]; ring
  exact (hround.trans (by positivity) hb).mono (by norm_num) (by positivity)

theorem magnitude64_within (mode : F64Mode) {n d : Nat} (hn : 0 < n) (hd : 0 < d) :
    (magnitude64 mode n d).Within (2 ^ (-51 : Int)) ((n : Rat) / d) := by
  cases mode with
  | division => exact (magnitude64_division_within hn hd).mono (by norm_num) (by positivity)
  | multiplication => exact magnitude64_multiplication_within hn hd

/-! ### The 64 bits -/

/-- A number near one between `2^-30` and `2^30` has an exponent far inside the range of binary64 (R138). -/
theorem Double.Within.exp_range {x : Double} {ε a : Rat} (h : x.Within ε a) (hε : ε ≤ 1 / 2)
    (hlow : (2 : Rat) ^ (-30 : Int) ≤ a) (hhigh : a ≤ (2 : Rat) ^ (30 : Int)) : -84 < x.exp ∧ x.exp ≤ -21 := by
  have ha : 0 < a := (zpow_pos two_pos _).trans_le hlow
  have he : (0 : Rat) < 2 ^ x.exp := zpow_pos two_pos _
  obtain ⟨h0, h1⟩ := abs_le.1 (h.close.trans (mul_le_mul_of_nonneg_right hε ha.le))
  have hv0 : (2 : Rat) ^ (x.exp + 52) ≤ x.value := by
    rw [zpow_add₀ two_ne_zero, mul_comm, value]
    gcongr
    exact_mod_cast h.low
  have hv1 : x.value < (2 : Rat) ^ (x.exp + 53) := by
    rw [zpow_add₀ two_ne_zero, mul_comm _ ((2 : Rat) ^ (53 : Int)), value]
    gcongr
    exact_mod_cast h.high
  have hup : (2 : Rat) ^ (x.exp + 52) ≤ 2 ^ (31 : Int) := by
    calc (2 : Rat) ^ (x.exp + 52) ≤ x.value := hv0
      _ ≤ 2 * a := by linarith
      _ ≤ 2 * 2 ^ (30 : Int) := by gcongr
      _ = 2 ^ (31 : Int) := by norm_num
  have hdown : (2 : Rat) ^ (-31 : Int) < 2 ^ (x.exp + 53) := by
    calc (2 : Rat) ^ (-31 : Int) = 1 / 2 * 2 ^ (-30 : Int) := by norm_num
      _ ≤ 1 / 2 * a := by gcongr
      _ ≤ x.value := by linarith
      _ < 2 ^ (x.exp + 53) := hv1
  rw [zpow_le_zpow_iff_right₀ one_lt_two] at hup
  rw [zpow_lt_zpow_iff_right₀ one_lt_two] at hdown
  omega

/-- The fields of a binary64 pattern read back the sign and the number it was made from. -/
theorem f64Value_bits (neg : Bool) {x : Double} (hlow : 2 ^ 52 ≤ x.mant) (hhigh : x.mant < 2 ^ 53)
    (he : -1075 < x.exp) (he' : x.exp < 972) :
    f64Value (x.bits neg) = some ((if neg then -1 else 1) * x.value) := by
  obtain ⟨E, hE⟩ : ∃ E : Nat, (E : Int) = x.exp + 52 + 1023 := ⟨(x.exp + 52 + 1023).toNat, by omega⟩
  have hnat : (x.bits neg).toNat = (if neg then 2 ^ 63 else 0) + E * 2 ^ 52 + (x.mant - 2 ^ 52) := by
    rw [Double.bits, ← hE, Int.toNat_natCast, BitVec.toNat_ofNat, Nat.mod_eq_of_lt]
    split <;> omega
  have hne : x.bits neg ≠ 0 := fun h => by
    rw [h] at hnat
    simp only [BitVec.ofNat_eq_ofNat, BitVec.toNat_ofNat] at hnat
    omega
  have hexp : (x.bits neg).toNat / 2 ^ 52 % 2 ^ 11 = E := by
    rw [hnat]
    split <;> omega
  have hfrac : 2 ^ 52 + (x.bits neg).toNat % 2 ^ 52 = x.mant := by
    rw [hnat]
    split <;> omega
  have hsign : (x.bits neg).getLsbD 63 = neg := by
    rw [BitVec.getLsbD, Nat.testBit_eq_decide_div_mod_eq, hnat]
    cases neg with
    | true => exact decide_eq_true (by rw [if_pos rfl]; omega)
    | false => exact decide_eq_false (by rw [if_neg Bool.false_ne_true]; omega)
  have hE0 : ¬(E = 0 ∨ E = 2047) := by omega
  rw [f64Value]
  simp only [if_neg hne, hexp, hfrac, hsign, if_neg hE0]
  rw [mul_assoc, Double.value, show (E : Int) - 1075 = x.exp by omega]

/-! ### The binary64 view of a raw value -/

/-- The divisors are 100, 10 and 10^7 (R138). -/
theorem divisorOf_range {r : Reg} : ∀ d ∈ divisorOf r, 1 ≤ d ∧ d ≤ 10 ^ 7 := by
  cases r <;> decide

/-- Every raw value has a magnitude of at most 29 bits (R13). -/
theorem rawRange_subset (r : Reg) : -2 ^ 29 ≤ rawMin r ∧ rawMax r ≤ 2 ^ 29 := by
  rw [rawMin_eq, rawMax_eq]
  cases r <;> decide

/-- The magnitude of a raw value other than 0, over its divisor, lies far inside the range of binary64 (R13, R138). -/
theorem raw_quotient_range {r : Reg} {d : Nat} {v : Int} (h : divisorOf r = some d) (hmin : rawMin r ≤ v)
    (hmax : v ≤ rawMax r) (hv : v ≠ 0) :
    (2 : Rat) ^ (-30 : Int) ≤ v.natAbs / d ∧ (v.natAbs : Rat) / d ≤ 2 ^ (30 : Int) := by
  obtain ⟨hd, hd'⟩ := divisorOf_range d h
  obtain ⟨hm, hM⟩ := rawRange_subset r
  have hn : 1 ≤ v.natAbs := by omega
  have hn' : v.natAbs ≤ 2 ^ 29 := by omega
  have hd0 : (0 : Rat) < d := Nat.cast_pos.2 hd
  constructor
  · calc (2 : Rat) ^ (-30 : Int) ≤ 1 / 10 ^ 7 := by norm_num
      _ ≤ v.natAbs / d := by gcongr <;> exact_mod_cast ‹_›
  · calc (v.natAbs : Rat) / d ≤ v.natAbs := div_le_self (Nat.cast_nonneg _) (by exact_mod_cast hd)
      _ ≤ 2 ^ (29 : Int) := by exact_mod_cast hn'
      _ ≤ 2 ^ (30 : Int) := by norm_num

/-- The view of a raw value other than 0 is its magnitude's view with its sign (R138). -/
theorem f64_of_ne_zero {r : Reg} {d : Nat} (h : divisorOf r = some d) (mode : F64Mode) {v : Int} (hv : v ≠ 0) :
    f64 mode r v = some ((magnitude64 mode v.natAbs d).bits (decide (v < 0))) := by
  rw [f64, h, Option.map_some, if_neg hv]

/-- Zero is +0 in either mode (R138). -/
theorem f64_zero {r : Reg} {d : Nat} (h : divisorOf r = some d) (mode : F64Mode) : f64 mode r 0 = some 0 := by
  rw [f64, h, Option.map_some, if_pos rfl]

theorem abs_quotient_eq (v : Int) (d : Nat) : |(v : Rat) / d| = (v.natAbs : Rat) / d := by
  rw [abs_div, Nat.abs_cast, Nat.cast_natAbs, Int.cast_abs]

/-- The sign of a raw value is that of its quotient, so an approximation with that sign errs as the magnitude does. -/
theorem abs_signed_sub_quotient (v : Int) (d : Nat) (m : Rat) :
    |(if decide (v < 0) then -1 else 1) * m - (v : Rat) / d| = |m - (v.natAbs : Rat) / d| := by
  rw [Nat.cast_natAbs, Int.cast_abs]
  rcases lt_or_ge v 0 with h | h
  · rw [if_pos (decide_eq_true h), abs_of_neg (Int.cast_lt_zero.2 h), ← abs_neg]
    congr 1
    ring
  · rw [if_neg (by simpa using h), abs_of_nonneg (Int.cast_nonneg h), one_mul]

/-- Settles O56: the view is the magnitude's rounding with the sign of the raw value, and its exponent is in range. -/
theorem binaryViewIsClose : Obligations.BinaryViewIsClose := by
  intro mode r d v h hmin hmax
  by_cases hv : v = 0
  · subst hv
    exact ⟨0, 0, f64_zero h mode, rfl, by simp, fun _ => by simp, fun _ => rfl⟩
  have hn : 0 < v.natAbs := Int.natAbs_pos.2 hv
  have hd : 0 < d := (divisorOf_range d h).1
  obtain ⟨hlow, hhigh⟩ := raw_quotient_range h hmin hmax hv
  have hw := magnitude64_within mode hn hd
  obtain ⟨he, he'⟩ := hw.exp_range (by norm_num) hlow hhigh
  refine ⟨_, _, f64_of_ne_zero h mode hv, f64Value_bits _ hw.low hw.high (by omega) (by omega), ?_, ?_,
    fun h0 => absurd h0 hv⟩
  · rw [abs_signed_sub_quotient, abs_quotient_eq]
    exact hw.close
  · rintro rfl
    rw [abs_signed_sub_quotient, abs_quotient_eq]
    exact (magnitude64_division_within hn hd).close

end Sys2Proof.Machine
end

section
/-! PROOFS. The statements of 44_pack_reference.md: the reference packer on this hardware's table and its two round
trips (R150 to R153). -/
namespace Sys2Proof.Machine

theorem layoutV7_wf : layoutV7.wf = true := layoutV7IsWellFormed.1

/-- `USED` of `LAYOUT_V7` is the number of R151. -/
theorem layoutV7_usedMask : layoutV7.usedMask = 2 ^ 272 - 1 - 2 ^ 230 - 2 ^ 231 - 2 ^ 262 - 2 ^ 263 := by
  obtain ⟨-, -, hmask, -⟩ := layoutV7IsWellFormed
  exact hmask

/-! ### The bytes of a packing -/

/-- The 34 bytes of a number are the frame of its low 272 bits (R31). -/
theorem frameOfBytes_bytesOf (F : Nat) : frameOfBytes (bytesOf frameLen F) = F % 2 ^ 272 := by
  have hbytes : frameOfBytes (bytesOf frameLen F) = leSum (byteOf F) 34 := leSum_congr fun _ ha => bytesOf_getD F ha
  rw [hbytes, leSum_byteOf]

/-- A packing is a number of 272 bits (R61, R150). -/
theorem packWith_lt {L : Layout} (hL : L.wf = true) (v : Reg → Int) : packWith L v < 2 ^ 272 := by
  rw [packWith_eq_packRows]
  exact packRows_lt hL (fun _ _ => pattern_lt _ _) le_rfl

/-! ### What PACK accepts -/

/-- The check of PACK: each of the fifteen values lies in its register's raw range (R150). -/
theorem allRegs_inRawRange_iff (v : Reg → Int) :
    allRegs.all (fun r => inRawRange r (v r)) = true ↔ ∀ r, rawMin r ≤ v r ∧ v r ≤ rawMax r := by
  have hmem : ∀ r, r ∈ allRegs := by intro r; cases r <;> decide
  simp [inRawRange, hmem]

/-- PACK of an in-range record gives 34 bytes, whose frame is the packing by `LAYOUT_V7` (R150). -/
theorem pack_of_inRange {v : Reg → Int} (h : ∀ r, rawMin r ≤ v r ∧ v r ≤ rawMax r) :
    ∃ p, pack v = some p ∧ p.length = 34 ∧ frameOfBytes p = packWith layoutV7 v := by
  refine ⟨_, if_pos ((allRegs_inRawRange_iff v).2 h), bytesOf_length _ _, ?_⟩
  rw [frameOfBytes_bytesOf, config_rows, Nat.mod_eq_of_lt (packWith_lt layoutV7_wf v)]

/-- PACK refuses a record with a value outside its raw range (R150, D25). -/
theorem pack_of_outOfRange {v : Reg → Int} {r : Reg} (h : v r < rawMin r ∨ rawMax r < v r) : pack v = none := by
  refine if_neg fun hall => ?_
  have hr := (allRegs_inRawRange_iff v).1 hall r
  omega

/-! ### The two round trips -/

/-- What `LAYOUT_V7` reads in a frame is the register of the unpacked record (R77). -/
theorem valueWith_layoutV7 (F : Nat) (r : Reg) : valueWith layoutV7 F r = some ((unpackFrame F).value r) := by
  have hrow := valueWith_of_mem layoutV7_wf (rowOf_mem r) F
  rwa [rowOf_reg, ← unpackFrame_value] at hrow

/-- The values that fit a row are those between its least and its greatest (R91 a, R123 a). -/
theorem fits_iff (row : FieldRow) (z : Int) : Fits row z ↔ row.minValue ≤ z ∧ z ≤ row.maxValue := by
  cases hs : row.signed <;>
    simp only [Fits, FieldRow.minValue, FieldRow.maxValue, hs, if_true, Bool.false_eq_true, if_false,
      Int.le_sub_one_iff]

/-- A value in a register's raw range fits the register's row (R13). -/
theorem fits_rowOf {r : Reg} {z : Int} (h : rawMin r ≤ z ∧ z ≤ rawMax r) : Fits (rowOf r) z := by
  rwa [fits_iff, ← config_row]

/-- Settles O43: UNPACK answers in the raw ranges, so PACK accepts, and the law of every table is at `LAYOUT_V7`. -/
theorem packOfUnpackIsTheUsedBits : Obligations.PackOfUnpackIsTheUsedBits := by
  intro f _
  obtain ⟨p, hp, hlen, hframe⟩ := pack_of_inRange (v := (unpack f).value) (unpackFrame_range (frameOfBytes f))
  refine ⟨p, hp, hlen, ?_⟩
  have hvalues : (fun r => (valueWith layoutV7 (frameOfBytes f) r).getD 0) = (unpack f).value :=
    funext fun r => by rw [valueWith_layoutV7, Option.getD_some, unpack]
  rw [hframe, ← layoutV7_usedMask, ← packWith_valueWith layoutV7_wf, hvalues]

/-- Settles O44: an in-range value fits its row, so the packed frame has it there. -/
theorem unpackOfPackIsTheRecord : Obligations.UnpackOfPackIsTheRecord := by
  refine fun v => ⟨fun h => ?_, fun ⟨_, hr⟩ => pack_of_outOfRange hr⟩
  obtain ⟨p, hp, hlen, hframe⟩ := pack_of_inRange h
  refine ⟨p, hp, hlen, fun r => Option.some.inj ?_⟩
  have hfits : Fits (rowOf r) (v (rowOf r).reg) := by
    rw [rowOf_reg]
    exact fits_rowOf (h r)
  have hback := valueWith_packWith layoutV7_wf (rowOf_mem r) hfits
  rw [rowOf_reg] at hback
  rw [← hback, unpack, hframe, valueWith_layoutV7]

end Sys2Proof.Machine
end

section
/-! PROOFS. The statements of 45_derived_host.md: the angle of a point (R160), the altitude at its landmarks (R163),
and the attitude formulas on the rules' example vectors (R161, R164 to R166). -/
namespace Sys2Proof.Machine

/-! ### The angle of a point -/

/-- Half a turn is 180 degrees, so the range of R160 is that of an angle in radians between `-π` and `π`. -/
theorem degrees_mem_Ioc_iff (theta : ℝ) :
    theta * (Real.pi / 180) ∈ Set.Ioc (-Real.pi) Real.pi ↔ -180 < theta ∧ theta ≤ 180 := by
  have hscale : 0 < Real.pi / 180 := by positivity
  have hlow : -180 * (Real.pi / 180) < theta * (Real.pi / 180) ↔ -180 < theta := mul_lt_mul_iff_left₀ hscale
  have hhigh : theta * (Real.pi / 180) ≤ 180 * (Real.pi / 180) ↔ theta ≤ 180 := mul_le_mul_iff_left₀ hscale
  rw [Set.mem_Ioc, ← hlow, ← hhigh, neg_mul, mul_div_cancel₀ Real.pi (by norm_num : (180 : ℝ) ≠ 0)]

/-- The origin has no angle (R160, U11): a point at an angle is at a positive distance from it. -/
theorem not_isAtan2Degrees_origin (theta : ℝ) : ¬ IsAtan2Degrees 0 0 theta := by
  rintro ⟨-, -, rho, hrho, hx, hy⟩
  have hcos : Real.cos (theta * (Real.pi / 180)) = 0 := (zero_eq_mul.1 hx).resolve_left hrho.ne'
  have hsin : Real.sin (theta * (Real.pi / 180)) = 0 := (zero_eq_mul.1 hy).resolve_left hrho.ne'
  simpa [hcos, hsin] using Real.sin_sq_add_cos_sq (theta * (Real.pi / 180))

/-- The angle of a point in radians is the argument of the complex number `x + y i` (R160). -/
theorem IsAtan2Degrees.arg_eq {y x theta : ℝ} (h : IsAtan2Degrees y x theta) :
    Complex.arg ⟨x, y⟩ = theta * (Real.pi / 180) := by
  obtain ⟨hlow, hhigh, rho, hrho, hx, hy⟩ := h
  have hrange := (degrees_mem_Ioc_iff theta).2 ⟨hlow, hhigh⟩
  rw [← Complex.arg_mul_cos_add_sin_mul_I hrho hrange]
  congr 1
  apply Complex.ext <;> simp [hx, hy, ← Complex.ofReal_cos, ← Complex.ofReal_sin, -Complex.ofReal_mul]

/-- Off the origin the argument of `x + y i`, in degrees, is the angle of the point (R160). -/
theorem isAtan2Degrees_of_arg_eq {y x theta : ℝ} (hne : y ≠ 0 ∨ x ≠ 0)
    (harg : Complex.arg ⟨x, y⟩ = theta * (Real.pi / 180)) : IsAtan2Degrees y x theta := by
  have hz : (⟨x, y⟩ : ℂ) ≠ 0 := fun h =>
    hne.elim (fun hy => hy (congrArg Complex.im h)) (fun hx => hx (congrArg Complex.re h))
  obtain ⟨hlow, hhigh⟩ := (degrees_mem_Ioc_iff theta).1 (harg ▸ Complex.arg_mem_Ioc _)
  refine ⟨hlow, hhigh, ‖(⟨x, y⟩ : ℂ)‖, norm_pos_iff.2 hz, ?_, ?_⟩
  · rw [← harg, Complex.norm_mul_cos_arg]
  · rw [← harg, Complex.norm_mul_sin_arg]

/-- Settles O57: off the origin the only angle is the argument of `x + y i`, in degrees. -/
theorem angleExistsExactlyOffTheOrigin : Obligations.AngleExistsExactlyOffTheOrigin := by
  refine ⟨fun y x hne => ?_, not_isAtan2Degrees_origin⟩
  have hscale : Real.pi / 180 ≠ 0 := by positivity
  refine ⟨Complex.arg ⟨x, y⟩ / (Real.pi / 180), ?_, fun u hu => eq_div_of_mul_eq hscale hu.arg_eq.symm⟩
  exact isAtan2Degrees_of_arg_eq hne (div_mul_cancel₀ _ hscale).symm

/-! ### The altitude -/

/-- Settles O58: the power of a pressure ratio 1 is 1, of 0 is 0, and of a ratio above 1 is above 1. -/
theorem altitudeAtItsLandmarks : Obligations.AltitudeAtItsLandmarks := by
  refine ⟨?_, ?_, fun P h hP halt => ?_⟩
  · norm_num [IsAltitudeM]
  · norm_num [IsAltitudeM]
  · have hratio : 1 < (P : ℝ) / 101325 := by
      rw [one_lt_div (by norm_num)]
      exact_mod_cast hP
    have hpow : 1 < ((P : ℝ) / 101325) ^ (1 / 5.255 : ℝ) := Real.one_lt_rpow hratio (by norm_num)
    rw [halt]
    linarith

/-! ### The attitude -/

/-- A point straight along the x axis is at 0 degrees (R160). -/
theorem isAtan2Degrees_zero {x : ℝ} (hx : 0 < x) : IsAtan2Degrees 0 x 0 := by
  refine ⟨by norm_num, by norm_num, x, hx, ?_, ?_⟩ <;> simp

/-- A point straight along the y axis is at 90 degrees (R160). -/
theorem isAtan2Degrees_ninety {y : ℝ} (hy : 0 < y) : IsAtan2Degrees y 0 90 := by
  have hrad : (90 : ℝ) * (Real.pi / 180) = Real.pi / 2 := by ring
  refine ⟨by norm_num, by norm_num, y, hy, ?_, ?_⟩ <;> simp [hrad]

/-- A point as far along the x axis as against the y axis is at -45 degrees (R160). -/
theorem isAtan2Degrees_neg_fortyFive {a : ℝ} (ha : 0 < a) : IsAtan2Degrees (-a) a (-45) := by
  have hrad : (-45 : ℝ) * (Real.pi / 180) = -(Real.pi / 4) := by ring
  have hroot : a * Real.sqrt 2 * (Real.sqrt 2 / 2) = a := by
    rw [mul_assoc, ← mul_div_assoc, Real.mul_self_sqrt zero_le_two]
    ring
  refine ⟨by norm_num, by norm_num, a * Real.sqrt 2, by positivity, ?_, ?_⟩
  · rw [hrad, Real.cos_neg, Real.cos_pi_div_four, hroot]
  · rw [hrad, Real.sin_neg, Real.sin_pi_div_four, mul_neg, hroot]

/-- The literal pitch formula takes the angle of (sqrt(ax^2 + ay^2), -ax) (R165). -/
theorem isPitchDeg_pitchLiteral_iff (ax ay az : Int) (theta : ℝ) :
    IsPitchDeg pitchLiteral ax ay az theta ↔
      IsAtan2Degrees (-(ax : ℝ)) (Real.sqrt ((ax : ℝ) ^ 2 + (ay : ℝ) ^ 2)) theta :=
  exists_eq_left

/-- Settles O59: each example is the angle of a point on an axis, on the diagonal, or at the origin. -/
theorem attitudeFormulasOnTheExamples : Obligations.AttitudeFormulasOnTheExamples := by
  refine ⟨?_, ?_, ?_, fun theta h => ?_, fun ax az hax => ?_, fun mx my => rfl⟩
  · norm_num [IsAccelerationTotalG]
  · simpa [IsRollDeg] using isAtan2Degrees_zero (x := 1000) (by norm_num)
  · simpa [IsRollDeg] using isAtan2Degrees_ninety (y := 1000) (by norm_num)
  · rw [isPitchDeg_pitchLiteral_iff] at h
    exact not_isAtan2Degrees_origin theta (by simpa using h)
  · have hpos : (0 : ℝ) < ax := Int.cast_pos.2 hax
    rw [isPitchDeg_pitchLiteral_iff, Int.cast_zero, zero_pow two_ne_zero, add_zero, Real.sqrt_sq hpos.le]
    exact isAtan2Degrees_neg_fortyFive hpos

end Sys2Proof.Machine
end

section
/-! PROOFS. The statement of 60_exceptions.md on RST and a byte in one step (R184 a). -/
namespace Sys2Proof.Machine

/-- Settles O20: bit 10 makes the word an RST, so no strobe is shown, and the step is the equation of RST. -/
theorem rstBeatsAByteOfTheSameStep : Obligations.RstBeatsAByteOfTheSameStep := by
  intro s w rest hbit hp
  obtain ⟨hrst, -, hexec⟩ := rstEffect (s.withPending rest) w hbit
  have hstb : s.outStb = false := by rw [State.outStb_of_present hp, hrst]; rfl
  have hstep := step_action hp
  rw [perform_present, hrst, hexec] at hstep
  exact ⟨hstb, _, hstep, rfl, rfl, rfl, rfl, rfl⟩

end Sys2Proof.Machine
end

section
/-! PROOFS. The statements of 70_reset_and_hazards.md: a run from power-on (R200, R203) and the completeness of reset
(R201). -/
namespace Sys2Proof.Machine

/-! ### Runs, word by word -/

/-- RST in any state (R71), as the effect of its word. -/
theorem afterWord_of_rst {w : PortWord} (h : decodePort w = .rst) (s : State) :
    afterWord s w = (s.withCnt 0).flagsCleared.withRegs RegFile.noValue := by
  rw [afterWord, h]

/-- IDLE changes nothing (R72). -/
theorem afterWord_of_idle {w : PortWord} (h : decodePort w = .idle) (s : State) : afterWord s w = s := by
  rw [afterWord, h]

/-- PUSH accepts its byte (R73). -/
theorem afterWord_of_push {w : PortWord} {b : Byte} (h : decodePort w = .push b) (s : State) :
    afterWord s w = s.acceptByte b := by
  rw [afterWord, h]

/-- PUSHL completes with its byte (R74). -/
theorem afterWord_of_pushl {w : PortWord} {b : Byte} (h : decodePort w = .pushl b) (s : State) :
    s.Completed b (afterWord s w) := by
  obtain ⟨t, ht, hdone⟩ := exec_pushl s b
  rw [← h, exec_word] at ht
  cases ht
  exact hdone

/-- A run that begins with a port word is the run of what follows, from the state after the word (R70). -/
theorem runActions_present (w : PortWord) (rest : List HostAction) (s : State) :
    runActions (.present w :: rest) s = runActions rest (afterWord s w) := by
  have hstep : step (s.withPending (.present w :: rest)) = .next ((afterWord s w).withPending rest) := by
    rw [step_action (State.withPending_pending s _), perform_present, withPending_withPending, exec_word,
      afterWord_withPending]
  exact run_of_next hstep rest.length

/-- Settles O53: both clauses by the check of the first action; the state after the RST by its equation. -/
theorem powerOnRunsBeginWithRst : Obligations.PowerOnRunsBeginWithRst := by
  refine ⟨fun acts h => if_neg (by simp [h]), fun w rest hw => ⟨afterWord State.powerOn w, ?_, ?_⟩⟩
  · have hbegins : beginsWithRst (.present w :: rest) = true := decide_eq_true hw
    rw [runFromPowerOn, if_pos hbegins, runActions_present]
  · rw [afterWord_of_rst hw]
    exact ⟨rfl, rfl, rfl, rfl, rfl, rfl, rfl⟩

/-! ### States that no words tell apart -/

/-- The counter, the flags and the record of s and t agree, and so does `FB` below the counter: the bytes above it are
overwritten before a completion reads them (R11, R34, R201). -/
structure State.Alike (s t : State) : Prop where
  fbLeft : Memory.wf s.fb
  fbRight : Memory.wf t.fb
  counter : s.cnt = t.cnt
  outValid : s.outValid = t.outValid
  errLen : s.errLen = t.errLen
  record : s.x = t.x
  collected : ∀ a, a < s.cnt.val → a < 34 → Memory.read s.fb a = Memory.read t.fb a

/-- Two states with no byte collected that report the same are alike, whatever is in `FB`. -/
theorem State.Alike.of_reports {s t : State} {e : Option Event} (hs : Memory.wf s.fb) (ht : Memory.wf t.fb)
    (hcs : s.cnt = 0) (hct : t.cnt = 0) (hrs : s.Reports e) (hrt : t.Reports e) : s.Alike t := by
  have hvis : s.outValid = t.outValid ∧ s.errLen = t.errLen ∧ s.x = t.x := by
    match e, hrs, hrt with
    | none, ⟨hv, he, hx⟩, ⟨hv', he', hx'⟩
    | some (.ok _), ⟨hv, he, hx⟩, ⟨hv', he', hx'⟩
    | some (.err _), ⟨hv, he, hx⟩, ⟨hv', he', hx'⟩ =>
      exact ⟨hv.trans hv'.symm, he.trans he'.symm, hx.trans hx'.symm⟩
  obtain ⟨hvalid, herr, hx⟩ := hvis
  exact ⟨hs, ht, hcs.trans hct.symm, hvalid, herr, hx, fun a ha => by simp [hcs] at ha⟩

/-- RST makes any two states alike (R201). -/
theorem State.Alike.of_rst {s t : State} (hs : Memory.wf s.fb) (ht : Memory.wf t.fb) {w : PortWord}
    (hw : decodePort w = .rst) : (afterWord s w).Alike (afterWord t w) := by
  rw [afterWord_of_rst hw, afterWord_of_rst hw]
  exact .of_reports (e := none) hs ht rfl rfl ⟨rfl, rfl, rfl⟩ ⟨rfl, rfl, rfl⟩

/-- PUSH counts up to 35 (R12, R73). -/
theorem State.acceptByte_cnt_val (s : State) (b : Byte) : (s.acceptByte b).cnt.val = min (s.cnt.val + 1) 35 := by
  by_cases h : s.cnt.val ≤ 33
  · rw [acceptByte_of_le h, withCnt_cnt, cntSucc_val (by omega)]
    omega
  · rw [acceptByte_of_gt (by omega)]
    show 35 = min (s.cnt.val + 1) 35
    omega

/-- An accepted byte leaves `FB` in canonical form (R30, R34). -/
theorem State.acceptedFb_wf {s : State} (h : Memory.wf s.fb) (b : Byte) : Memory.wf (s.acceptedFb b) := by
  by_cases hc : s.cnt.val ≤ 33
  · rw [acceptedFb_of_le hc]
    exact Memory.write_wf h (by omega) b
  · rwa [acceptedFb_of_gt (by omega)]

section
variable {s t : State} (h : s.Alike t)
include h

/-- With one more byte accepted, `FB` agrees up to and at the counter (R73, R74). -/
theorem State.Alike.read_acceptedFb (b : Byte) {a : Nat} (ha : a ≤ s.cnt.val) (ha' : a < 34) :
    Memory.read (s.acceptedFb b) a = Memory.read (t.acceptedFb b) a := by
  have hcnt : t.cnt.val = s.cnt.val := by rw [h.counter]
  by_cases hc : s.cnt.val ≤ 33
  · obtain ⟨hat, hoff⟩ := State.read_acceptedFb_of_le h.fbLeft hc b
    obtain ⟨hat', hoff'⟩ := State.read_acceptedFb_of_le h.fbRight (hcnt ▸ hc) b
    rw [hcnt] at hat' hoff'
    by_cases heq : a = s.cnt.val
    · rw [heq, hat, hat']
    · rw [hoff a heq, hoff' a heq]
      exact h.collected a (by omega) ha'
  · rw [State.read_acceptedFb_of_gt (by omega), State.read_acceptedFb_of_gt (by omega)]
    exact h.collected a (by omega) ha'

/-- PUSH keeps two states alike (R73). -/
theorem State.Alike.acceptByte (b : Byte) : (s.acceptByte b).Alike (t.acceptByte b) := by
  obtain ⟨hvalid, herr, hx, -⟩ := s.acceptByte_sameVisible b
  obtain ⟨hvalid', herr', hx', -⟩ := t.acceptByte_sameVisible b
  refine ⟨?_, ?_, Fin.ext ?_, ?_, ?_, ?_, fun a ha ha' => ?_⟩
  · rw [State.acceptByte_fb]
    exact State.acceptedFb_wf h.fbLeft b
  · rw [State.acceptByte_fb]
    exact State.acceptedFb_wf h.fbRight b
  · rw [State.acceptByte_cnt_val, State.acceptByte_cnt_val, h.counter]
  · rw [← hvalid, ← hvalid', h.outValid]
  · rw [← herr, ← herr', h.errLen]
  · rw [← hx, ← hx', h.record]
  · rw [State.acceptByte_cnt_val] at ha
    rw [State.acceptByte_fb, State.acceptByte_fb]
    exact h.read_acceptedFb b (by omega) ha'

/-- The frame of a completion is what both have collected and the byte of the PUSHL, so both emit the same (R75). -/
theorem State.Alike.completion_eq (b : Byte) : s.completion b = t.completion b := by
  by_cases hc : s.cnt.val = 33
  · have hframe : frameOf (s.acceptedFb b) = frameOf (t.acceptedFb b) :=
      leSum_congr fun a (ha : a < 34) => h.read_acceptedFb b (by omega) ha
    rw [State.completion_of_eq hc, State.completion_of_eq (h.counter ▸ hc), hframe]
  · rw [State.completion_of_ne hc, State.completion_of_ne (h.counter ▸ hc)]

/-- A port word keeps two states alike, and they emit the same (R201). -/
theorem State.Alike.of_word (w : PortWord) : (afterWord s w).Alike (afterWord t w) ∧
    ∃ es : List Event, (afterWord s w).events = s.events ++ es ∧ (afterWord t w).events = t.events ++ es := by
  rcases decodePort_cases w with hd | hd | hd | hd
  · refine ⟨.of_rst h.fbLeft h.fbRight hd, [], ?_, ?_⟩ <;> simp [afterWord_of_rst hd]
  · rw [afterWord_of_idle hd, afterWord_of_idle hd]
    exact ⟨h, [], by simp, by simp⟩
  · rw [afterWord_of_push hd, afterWord_of_push hd]
    obtain ⟨-, -, -, hev⟩ := s.acceptByte_sameVisible (w.setWidth 8)
    obtain ⟨-, -, -, hev'⟩ := t.acceptByte_sameVisible (w.setWidth 8)
    exact ⟨h.acceptByte _, [], by simp [hev], by simp [hev']⟩
  · obtain ⟨hcnt, hfb, hev, hrep, -, -⟩ := afterWord_of_pushl hd s
    obtain ⟨hcnt', hfb', hev', hrep', -, -⟩ := afterWord_of_pushl hd t
    rw [← h.completion_eq] at hev' hrep'
    exact ⟨.of_reports (hfb ▸ State.acceptedFb_wf h.fbLeft _) (hfb' ▸ State.acceptedFb_wf h.fbRight _) hcnt hcnt'
      hrep hrep', _, hev, hev'⟩

/-- Alike states stay alike along any words, and emit the same (R201). -/
theorem State.Alike.of_words (ws : List PortWord) : (ws.foldl afterWord s).Alike (ws.foldl afterWord t) ∧
    ∃ es : List Event, (ws.foldl afterWord s).events = s.events ++ es ∧
      (ws.foldl afterWord t).events = t.events ++ es := by
  induction ws using List.reverseRecOn with
  | nil => exact ⟨h, [], by simp, by simp⟩
  | append_singleton ws w ih =>
    obtain ⟨halike, es, hev, hev'⟩ := ih
    obtain ⟨halike', es', hone, hone'⟩ := halike.of_word w
    rw [List.foldl_concat, List.foldl_concat]
    exact ⟨halike', es ++ es', by rw [hone, hev, List.append_assoc], by rw [hone', hev', List.append_assoc]⟩

end

/-- Settles O48: the RST makes the two states alike, and they stay alike along the words after it. -/
theorem resetForgetsEverythingBefore : Obligations.ResetForgetsEverythingBefore := by
  intro s t w ws hs ht hw
  obtain ⟨halike, es, hev, hev'⟩ := (State.Alike.of_rst hs ht hw).of_words ws
  have hemit (u : State) : (afterWord u w).events = u.events := by
    rw [afterWord_of_rst hw]
    rfl
  rw [hemit] at hev hev'
  exact ⟨_, _, es, runWords_eq (w :: ws) s, runWords_eq (w :: ws) t, hev, hev', halike.outValid, halike.errLen,
    halike.record, halike.counter⟩

end Sys2Proof.Machine
end
